-- ==== Sys2Proof/Word.lean ====
section
/-! DEFINITION. The word types of the CHIP-8 core (spec/00_scope.md R4, R6; spec/10_state.md R10): bytes, 16-bit words,
register indices and the immediate fields. Bit 0 is the least significant bit of any value (R6). -/

namespace Sys2Proof

/-- A general register, a timer, a byte of memory (R10, R40). -/
abbrev Byte := BitVec 8

/-- `pc`, `i`, a stack entry, an instruction word (R10, R60). -/
abbrev Word := BitVec 16

/-- The fields `x` and `y`: every value is a register index (R11, R61). -/
abbrev RegIdx := BitVec 4

/-- The field `nnn` (R61). -/
abbrev Imm12 := BitVec 12

/-- The field `n` (R61). -/
abbrev Imm4 := BitVec 4

end Sys2Proof
end

