-- ==== Sys2Proof/Config.lean ====
section
/-! DEFINITION. What is fixed for the machine: the parameters of spec/00_scope.md R4, the default FONT of
spec/93_implementation_defined.md G2, and the one free value, the random byte of spec/10_state.md R27. -/

namespace Sys2Proof

namespace Config

/-- `MEM_SIZE` (R4): addresses 0x000 to 0xFFF. -/
def memSize : Nat := 4096

/-- `PROG_BASE` (R4): load address of the program and reset value of `pc`. -/
def progBase : Nat := 0x200

/-- `ROM_MAX` (R4): the longest program image. -/
def romMax : Nat := 3584

/-- `FLAG_REG` (R4): the index of the flag register `v[15]`. -/
def flagReg : RegIdx := 0xF#4

/-- `FB_W` (R4). -/
def fbWidth : Nat := 64

/-- `FB_H` (R4). -/
def fbHeight : Nat := 32

/-- Glyphs 0 to 7 of the default `FONT` (93_implementation_defined.md G2).
UNVERIFIED (log entry 9): the spec gives these bytes from general knowledge; unsafe for a picture drawn from them. -/
def fontLow : List Byte :=
  [0xF0, 0x90, 0x90, 0x90, 0xF0,  0x20, 0x60, 0x20, 0x20, 0x70,
   0xF0, 0x10, 0xF0, 0x80, 0xF0,  0xF0, 0x10, 0xF0, 0x10, 0xF0,
   0x90, 0x90, 0xF0, 0x10, 0x10,  0xF0, 0x80, 0xF0, 0x10, 0xF0,
   0xF0, 0x80, 0xF0, 0x90, 0xF0,  0xF0, 0x10, 0x20, 0x40, 0x40]

/-- Glyphs 8 to F of the default `FONT` (G2); UNVERIFIED as `fontLow`. -/
def fontHigh : List Byte :=
  [0xF0, 0x90, 0xF0, 0x90, 0xF0,  0xF0, 0x90, 0xF0, 0x10, 0xF0,
   0xF0, 0x90, 0xF0, 0x90, 0x90,  0xE0, 0x90, 0xE0, 0x90, 0xE0,
   0xF0, 0x80, 0x80, 0x80, 0xF0,  0xE0, 0x90, 0x90, 0x90, 0xE0,
   0xF0, 0x80, 0xF0, 0x80, 0xF0,  0xF0, 0x80, 0xF0, 0x80, 0x80]

/-- The default `FONT` as one sequence: glyph `d` is bytes `5*d` to `5*d + 4` (G2, R243). -/
def fontBytes : List Byte := fontLow ++ fontHigh

/-- The 80 bytes given to `Reset` as `FONT` (R4). -/
abbrev Font := Vector Byte 80

/-- The default of the parameter `FONT` (R4, R243). -/
def font : Font := ⟨fontBytes.toArray, by decide⟩

/-- FREE VALUE (R27, R170; log entry 3): the random byte the n-th executed `Cxkk` consumes. It has no body, so nothing can
be proved of its values: a statement about it holds for every sequence of bytes. Safe. -/
opaque rndByte : Nat → Byte

end Config

end Sys2Proof
end

