-- ==== Sys2Proof/Machine/State.lean ====
section
/-! DEFINITION. The state of the core (spec/10_state.md R10) as plain data, the reasons a step can stop, and the state right
after reset (R30). -/

namespace Sys2Proof

namespace Machine

/-- The 4096-byte memory (R40) as its canonical list of cells: addresses strictly rising, none listed whose byte is the one
an unlisted address reads as (`Memory.initial`, log entry 18). -/
abbrev Memory := List Host.Cell

/-- The framebuffer `fb[0..31][0..63]` (R23): element `r` is row `r` from the top, its bit `c` the pixel of column `c` from
the left, 1 = on (log entry 17). -/
abbrev Framebuffer := Vector (BitVec 64) 32

/-- The compatibility mode (R25). -/
inductive Mode where
  | chip8
  | chip48
  deriving DecidableEq, Repr

/-- RUNNING or FAULTED (R26). -/
inductive Status where
  | running
  | faulted
  deriving DecidableEq, Repr

/-- The causes of R201; `none` is code 0, the value while RUNNING. -/
inductive FaultCause where
  | none
  | fetchOutOfRange
  | memOutOfRange
  | stackOverflow
  | stackUnderflow
  | keyIndexOutOfRange
  | illegalInstruction
  deriving DecidableEq, Repr

/-- One record of the decode-error log: the address the word was fetched from and the word (R33). -/
structure DecodeError where
  addr : Word
  word : Word
  deriving DecidableEq, Repr

/-- The sixteen state elements of R10, the configuration `STRICT_DECODE` of R4, and two fields of the model's own. -/
structure State where
  /-- `memory` (R29, R40). -/
  mem : Memory
  /-- `v[0..15]`; `v[15]` doubles as the flag (R11, R12). -/
  v : Vector Byte 16
  /-- The index register (R17). -/
  i : Word
  /-- The program counter (R14). -/
  pc : Word
  /-- The call stack (R18). -/
  stack : Vector Word 16
  /-- The number of stack entries in use, 0 to 16 (R18, R19). -/
  sp : Fin 17
  /-- The delay timer `DT` (R20). -/
  dt : Byte
  /-- The sound timer `ST` (R21). -/
  st : Byte
  /-- The key-held flags, key `k` at bit `k` (R22, R217). -/
  keys : BitVec 16
  /-- The framebuffer (R23). -/
  fb : Framebuffer
  /-- `draw_pending` (R24). -/
  drawPending : Bool
  /-- `MODE` (R25). -/
  mode : Mode
  /-- `status` (R26). -/
  status : Status
  /-- `fault_cause` (R26, R201). -/
  faultCause : FaultCause
  /-- `fault_pc` (R26). -/
  faultPc : Word
  /-- `fault_info` (R26). -/
  faultInfo : Word
  /-- The argument `STRICT_DECODE`, fixed at Reset (R4, R68; log entry 5). -/
  strictDecode : Bool
  /-- The decode-error log, oldest record first: an output stream no instruction reads (R33; log entry 4). -/
  log : List DecodeError
  /-- The model's own counter: how many random bytes have been consumed (R27, R170; log entry 3). -/
  rndCount : Nat
  deriving DecidableEq, Repr

/-- Why a step stops with a fault: there is NO such reason. Every fault of the spec is a definite, precise transition to the
FAULTED status (R209, R210) and so a next state; a FAULTED core's `Step` returns unchanged (R212), again a next state
(log entry 7). Nothing raises a value of this type. Safe. -/
inductive Fault where
  deriving DecidableEq, Repr

/-- Why a step is refused. -/
inductive Refusal where
  /-- Raised by an arm of `exec` whose instruction has no meaning yet; no arm is left that does. Safe. -/
  | notModelled (mnemonic : String)
  deriving DecidableEq, Repr

/-- The machine right after `Reset(CHIP8, empty rom)` with the default FONT and STRICT_DECODE false (R30, R240, R241): the
values of R30. The mode is the model's choice, DESIGN CHOICE (log entry 1); so is the 0 in the stack entries, which R30
leaves unspecified, DESIGN CHOICE (log entry 2). No cell is listed: memory is the reset image. -/
def State.reset : State where
  mem := []
  v := Vector.replicate 16 0#8
  i := 0#16
  pc := 0x200#16
  stack := Vector.replicate 16 0#16
  sp := 0
  dt := 0#8
  st := 0#8
  keys := 0#16
  fb := Vector.replicate 32 0#64
  drawPending := false
  mode := .chip8
  status := .running
  faultCause := .none
  faultPc := 0#16
  faultInfo := 0#16
  strictDecode := false
  log := []
  rndCount := 0

end Machine

end Sys2Proof
end

