-- ==== Sys2Proof/Machine/Ops.lean ====
section
/-! DEFINITION. The named operations over memory, registers, stack, framebuffer and keys, and fault entry
(spec/00_scope.md R7; spec/20_memory.md; spec/60_exceptions.md R209). -/

namespace Sys2Proof

namespace Machine

/-! ### Memory -/

/-- What an address no cell lists reads as: the reset image with the default FONT and an empty rom (R30, R241): the font at
0x000 to 0x04F, 0 elsewhere (log entries 9 and 18). -/
def Memory.initial (a : Nat) : Byte := Config.fontBytes.getD a 0#8

/-- `MemRead(a, 1)` (R41). Evaluated only for `a` below 4096: every instruction checks its range first (log entry 20). -/
def Memory.read : Memory → Nat → Byte
  | [], a => Memory.initial a
  | (a', b) :: rest, a => if a = a' then b else Memory.read rest a

/-- Puts the byte `b` at `a` in front of cells whose addresses are higher, unless `a` reads as `b` unlisted. -/
def Memory.consCell (a : Nat) (b : Byte) (rest : Memory) : Memory :=
  if b = Memory.initial a then rest else (a, b) :: rest

/-- `Memory.write` on the cells alone, in address order. -/
def Memory.insert : Memory → Nat → Byte → Memory
  | [], a, b => Memory.consCell a b []
  | (a', b') :: rest, a, b =>
    if a < a' then Memory.consCell a b ((a', b') :: rest)
    else if a = a' then Memory.consCell a b rest
    else (a', b') :: Memory.insert rest a b

/-- `MemWrite(a, 1, b)` (R42). An address of 4096 or more names no byte; no rule writes one (log entry 20). -/
def Memory.write (m : Memory) (a : Nat) (b : Byte) : Memory :=
  if a < Config.memSize then Memory.insert m a b else m

/-- Single-byte writes in ascending address order from `a` (R44, R46). -/
def Memory.writeList (m : Memory) (a : Nat) : List Byte → Memory
  | [] => m
  | b :: bs => Memory.writeList (Memory.write m a b) (a + 1) bs

/-- The cells' addresses rise strictly from `lo` on, stay below 4096, and no cell holds what its address reads as unlisted. -/
def Memory.wfFrom (lo : Nat) : Memory → Bool
  | [] => true
  | (a, b) :: rest =>
    decide (lo ≤ a) && decide (a < Config.memSize) && decide (b ≠ Memory.initial a) && Memory.wfFrom (a + 1) rest

/-- The canonical form of memory: equal memories are equal lists. -/
def Memory.wf (m : Memory) : Bool := Memory.wfFrom 0 m

/-- Every one of the `len` addresses from `a` on is below 4096, on unbounded integers (R41, R203); no address, no condition
(R165 (a)). -/
def inRange (a len : Nat) : Bool := decide (len = 0) || decide (a + len ≤ Config.memSize)

/-! ### Registers -/

/-- Read of general register `x` (R7, R11). -/
def State.getV (s : State) (x : RegIdx) : Byte := s.v[x.toNat]'x.isLt

/-- `v[x] <- b` (R7, R11). -/
def State.setV (s : State) (x : RegIdx) (b : Byte) : State := { s with v := s.v.set x.toNat b x.isLt }

/-- `v[15] <- b`, a flag write (R12). -/
def State.setFlag (s : State) (b : Byte) : State := s.setV Config.flagReg b

/-- `pc <- t` (R7). -/
def State.setPc (s : State) (t : Word) : State := { s with pc := t }

/-- `i <- a` (R17). -/
def State.setI (s : State) (a : Word) : State := { s with i := a }

/-- The fetch advance: `pc <- pc0 + 2` before execute (R14, R43). Every meaning below starts from the state at the beginning
of the `Step`, in which `pc` is `pc0` (log entry 6). -/
def State.advance (s : State) : State := s.setPc (s.pc + 2#16)

/-- A taken skip: "advance `pc` by 2 more" (R103 to R106). -/
def State.skipIf (s : State) (taken : Bool) : State := if taken then s.setPc (s.pc + 4#16) else s.advance

/-- The registers `v[0..n-1]` in ascending order (R144). -/
def State.firstRegs (s : State) (n : Nat) : List Byte := s.v.toList.take n

/-- `v[k] <- MemRead(base + k, 1)` for `k` from 0 to `n - 1`, in ascending order (R145). -/
def loadRegs (m : Memory) (base : Nat) : Nat → Vector Byte 16 → Vector Byte 16
  | 0, v => v
  | n + 1, v => (loadRegs m base n v).setIfInBounds n (Memory.read m (base + n))

/-! ### Fault entry -/

/-- `raise Fault(cause, info)` (R209, R210) from the state at the beginning of the `Step`: the status and the three fault
registers are written, `fault_pc` with `pc0`, and every other state element keeps its value, `pc` included. -/
def raise (cause : FaultCause) (info : Word) (s : State) : State :=
  { s with status := .faulted, faultCause := cause, faultPc := s.pc, faultInfo := info }

/-- The codes of R201 as `fault_cause` shows them. -/
def FaultCause.code : FaultCause → BitVec 3
  | .none => 0
  | .fetchOutOfRange => 1
  | .memOutOfRange => 2
  | .stackOverflow => 3
  | .stackUnderflow => 4
  | .keyIndexOutOfRange => 5
  | .illegalInstruction => 6

/-- An instruction that touches the `len` bytes from `i` on: its effect if all of them exist, else
`Fault(MemOutOfRange, i)` before any effect (R41, R203). -/
def withRange (len : Nat) (s : State) (effect : State) : Host.Outcome State Fault Refusal :=
  if inRange s.i.toNat len then .next effect else .next (raise .memOutOfRange s.i s)

/-! ### Call stack -/

/-- Push: `stack[sp] <- value; sp <- sp + 1`, or `none` when the stack is full (R18, R19). -/
def State.push (s : State) (value : Word) : Option State :=
  if h : s.sp.val < 16 then
    some { s with stack := s.stack.set s.sp.val value h, sp := ⟨s.sp.val + 1, by omega⟩ }
  else none

/-- Pop: `sp <- sp - 1; value := stack[sp]`, or `none` when the stack is empty (R18, R19). -/
def State.pop (s : State) : Option (Word × State) :=
  if h : 0 < s.sp.val then
    some (s.stack[s.sp.val - 1]'(by omega), { s with sp := ⟨s.sp.val - 1, by omega⟩ })
  else none

/-! ### Framebuffer -/

/-- The pixel `fb[r][c]`; off the screen there is none (R23). -/
def Framebuffer.pixel (fb : Framebuffer) (r c : Nat) : Bool :=
  if h : r < 32 then (fb[r]'h).getLsbD c else false

/-- `fb[r][c] <- fb[r][c] xor 1` (R163). -/
def Framebuffer.toggle (fb : Framebuffer) (r c : Nat) : Framebuffer :=
  if h : r < 32 then fb.set r (fb[r]'h ^^^ BitVec.twoPow 64 c) h else fb

/-- Every pixel off (R160). -/
def Framebuffer.clear : Framebuffer := Vector.replicate 32 0#64

/-! ### Keys -/

/-- `keys[k]` (R22). -/
def State.keyHeld (s : State) (k : Nat) : Bool := s.keys.getLsbD k

/-- "the least k in 0 .. 15 with keys[k] = 1", if a key is held (R174; the least is the spec's decision D15, log entry 13). -/
def State.lowestKey (s : State) : Option Nat := (List.range 16).find? fun k => s.keyHeld k

end Machine

end Sys2Proof
end

