-- ==== Sys2Proof/Machine/Operands.lean ====
section
/-! DEFINITION. The operand forms that are more than a register or an immediate: the mode-dependent operands of
spec/10_state.md R25 and the sprite's target pixels of spec/43_display.md R161, R162. -/

namespace Sys2Proof

namespace Machine

/-- The value `8xy6` and `8xyE` shift: `v[y]` in CHIP-8 mode, `v[x]` in CHIP-48 mode (R128, R130). -/
def State.shiftOperand (s : State) (x y : RegIdx) : Byte :=
  match s.mode with
  | .chip8 => s.getV y
  | .chip48 => s.getV x

/-- The register `Bnnn` adds: `v[0]` in CHIP-8 mode, `v[x]` with `x = nnn[11:8]` in CHIP-48 mode (R62, R107). -/
def jumpOffsetReg (mode : Mode) (nnn : Imm12) : RegIdx :=
  match mode with
  | .chip8 => 0x0#4
  | .chip48 => nnn.extractLsb' 8 4

/-- How far `Fx55` and `Fx65` advance `i`: `x + 1` in CHIP-8 mode, `x` in CHIP-48 mode (R144, R145). -/
def indexAdvance (mode : Mode) (x : RegIdx) : Nat :=
  match mode with
  | .chip8 => x.toNat + 1
  | .chip48 => x.toNat

/-- `i` after `Fx55` or `Fx65`, 16 bits (R17, R144, R145). -/
def State.nextIndex (s : State) (x : RegIdx) : Word := s.i + BitVec.ofNat 16 (indexAdvance s.mode x)

/-- The decimal digits of a byte: hundreds, tens, ones (R143). -/
def decimalDigits (d : Byte) : List Byte :=
  [BitVec.ofNat 8 (d.toNat / 100), BitVec.ofNat 8 (d.toNat / 10 % 10), BitVec.ofNat 8 (d.toNat % 10)]

/-- The wrap mode of a sprite: its origin lies outside the screen in either coordinate. One decision per sprite, covering
both axes (R162; the literal reading is the spec's decision D12, log entry 12). -/
def originOutside (x0 y0 : Nat) : Bool := decide (Config.fbWidth ≤ x0) || decide (Config.fbHeight ≤ y0)

/-- The pixel, row and column, a set bit of a sprite lands on: reduced in wrap mode, dropped outside the screen in clip mode
(R161, R162). -/
def spriteTarget (wrap : Bool) (px py : Nat) : Option (Nat × Nat) :=
  if wrap then some (py % Config.fbHeight, px % Config.fbWidth)
  else if Config.fbWidth ≤ px ∨ Config.fbHeight ≤ py then none
  else some (py, px)

/-- The pixels the set bits of one sprite row land on, left to right; the most significant bit is the leftmost (R161). -/
def rowTargets (x0 y0 : Nat) (row : Nat) (b : Byte) : List (Nat × Nat) :=
  (List.range 8).filterMap fun col =>
    if b.getLsbD (7 - col) then spriteTarget (originOutside x0 y0) (x0 + col) (y0 + row) else none

/-- The pixels the set bits of an `n`-row sprite at address `a` land on, row by row (R161). -/
def spriteTargets (m : Memory) (a n x0 y0 : Nat) : List (Nat × Nat) :=
  (List.range n).flatMap fun row => rowTargets x0 y0 row (Memory.read m (a + row))

/-- One step of the drawing loop: the pixel is inverted, and a pixel that was on sets the collision flag, which stays set
(R161, R163). -/
def drawPixel (acc : Framebuffer × Bool) (target : Nat × Nat) : Framebuffer × Bool :=
  (acc.1.toggle target.1 target.2, acc.2 || acc.1.pixel target.1 target.2)

/-- The drawing loop: the framebuffer and the collision flag after every target pixel, from flag 0 (R161). -/
def drawTargets (fb : Framebuffer) (targets : List (Nat × Nat)) : Framebuffer × Bool :=
  targets.foldl drawPixel (fb, false)

end Machine

end Sys2Proof
end

