-- ==== Sys2Proof/Machine/Flags.lean ====
section
/-! DEFINITION. Every flag computation of spec/10_state.md R12 and the one order of the result write and the flag write of
R13. -/

namespace Sys2Proof

namespace Machine

/-- A flag value, 0 or 1 (R12). -/
def flagByte (b : Bool) : Byte := if b then 1#8 else 0#8

/-- Carry out: the unsigned sum exceeds 255 (R126). -/
def carryOut (a b : Byte) : Bool := decide (255 < a.toNat + b.toNat)

/-- No borrow: `a ≥ b` on unsigned values, equality included (R127, R129). -/
def noBorrow (a b : Byte) : Bool := decide (b.toNat ≤ a.toNat)

/-- Bit 0 of the value shifted right (R128). -/
def bitOutRight (s : Byte) : Bool := s.getLsbD 0

/-- Bit 7 of the value shifted left (R130). -/
def bitOutLeft (s : Byte) : Bool := s.getLsbD 7

/-- The end of every flag-writing ALU instruction: the result to `v[x]`, then the flag to `v[15]`, both computed from the
registers as they stood (R13; the flag last is the source's "afterward" for `8xy1/2/3` and the spec's decision D10 for the
others, log entry 11). -/
def aluWrite (x : RegIdx) (result flag : Byte) (s : State) : State := (s.advance.setV x result).setFlag flag

end Machine

end Sys2Proof
end

