-- ==== Sys2Proof/Machine/Alu.lean ====
section
/-! DEFINITION. Register load and ALU instructions (spec/41_load_alu.md R120 to R130). None writes `pc` beyond the advance,
and none can fault. -/

namespace Sys2Proof

namespace Machine

/-- `6xkk` (R120). -/
def execLdKk (x : RegIdx) (kk : Byte) (s : State) : Host.Outcome State Fault Refusal :=
  .next (s.advance.setV x kk)

/-- `7xkk` (R121): modulo 256, no flag. -/
def execAddKk (x : RegIdx) (kk : Byte) (s : State) : Host.Outcome State Fault Refusal :=
  .next (s.advance.setV x (s.getV x + kk))

/-- `8xy0` (R122). -/
def execLdVy (x y : RegIdx) (s : State) : Host.Outcome State Fault Refusal :=
  .next (s.advance.setV x (s.getV y))

/-- `8xy1` (R123): OR, then `v[15] <- 0`. -/
def execOrVy (x y : RegIdx) (s : State) : Host.Outcome State Fault Refusal :=
  .next (aluWrite x (s.getV x ||| s.getV y) 0#8 s)

/-- `8xy2` (R124): AND, then `v[15] <- 0`. -/
def execAndVy (x y : RegIdx) (s : State) : Host.Outcome State Fault Refusal :=
  .next (aluWrite x (s.getV x &&& s.getV y) 0#8 s)

/-- `8xy3` (R125): exclusive OR, then `v[15] <- 0`. -/
def execXorVy (x y : RegIdx) (s : State) : Host.Outcome State Fault Refusal :=
  .next (aluWrite x (s.getV x ^^^ s.getV y) 0#8 s)

/-- `8xy4` (R126): sum modulo 256, flag = carry. -/
def execAddVy (x y : RegIdx) (s : State) : Host.Outcome State Fault Refusal :=
  .next (aluWrite x (s.getV x + s.getV y) (flagByte (carryOut (s.getV x) (s.getV y))) s)

/-- `8xy5` (R127): `v[x] - v[y]`, flag = no borrow. -/
def execSubVy (x y : RegIdx) (s : State) : Host.Outcome State Fault Refusal :=
  .next (aluWrite x (s.getV x - s.getV y) (flagByte (noBorrow (s.getV x) (s.getV y))) s)

/-- `8xy6` (R128): logical shift right by one of the mode's operand, flag = bit 0 of it. -/
def execShrVy (x y : RegIdx) (s : State) : Host.Outcome State Fault Refusal :=
  .next (aluWrite x (s.shiftOperand x y >>> 1) (flagByte (bitOutRight (s.shiftOperand x y))) s)

/-- `8xy7` (R129): `v[y] - v[x]`, flag = no borrow; the result goes to `v[x]`. -/
def execSubnVy (x y : RegIdx) (s : State) : Host.Outcome State Fault Refusal :=
  .next (aluWrite x (s.getV y - s.getV x) (flagByte (noBorrow (s.getV y) (s.getV x))) s)

/-- `8xyE` (R130): shift left by one of the mode's operand, flag = bit 7 of it. -/
def execShlVy (x y : RegIdx) (s : State) : Host.Outcome State Fault Refusal :=
  .next (aluWrite x (s.shiftOperand x y <<< 1) (flagByte (bitOutLeft (s.shiftOperand x y))) s)

end Machine

end Sys2Proof
end

