-- ==== Sys2Proof/Machine/ControlFlow.lean ====
section
/-! DEFINITION. Control transfer (spec/40_control_flow.md R100 to R107). Each meaning takes the state at the beginning of
the `Step`, `pc = pc0`. -/

namespace Sys2Proof

namespace Machine

/-- `00EE` (R100): pop into `pc`; an empty stack is `Fault(StackUnderflow, 0)` (R205, the spec's decision D7). -/
def execRet (s : State) : Host.Outcome State Fault Refusal :=
  match s.pop with
  | none => .next (raise .stackUnderflow 0#16 s)
  | some (target, s') => .next (s'.setPc target)

/-- `1nnn` (R101). -/
def execJp (nnn : Imm12) (s : State) : Host.Outcome State Fault Refusal :=
  .next (s.setPc (nnn.setWidth 16))

/-- `2nnn` (R102): push `pc0 + 2`, jump; a full stack is `Fault(StackOverflow, 16)` (R204, the spec's decision D7). -/
def execCall (nnn : Imm12) (s : State) : Host.Outcome State Fault Refusal :=
  match s.push (s.pc + 2#16) with
  | none => .next (raise .stackOverflow 16#16 s)
  | some s' => .next (s'.setPc (nnn.setWidth 16))

/-- `3xkk` (R103). -/
def execSeKk (x : RegIdx) (kk : Byte) (s : State) : Host.Outcome State Fault Refusal :=
  .next (s.skipIf (decide (s.getV x = kk)))

/-- `4xkk` (R104). -/
def execSneKk (x : RegIdx) (kk : Byte) (s : State) : Host.Outcome State Fault Refusal :=
  .next (s.skipIf (decide (s.getV x ≠ kk)))

/-- `5xy0` (R105). -/
def execSeVy (x y : RegIdx) (s : State) : Host.Outcome State Fault Refusal :=
  .next (s.skipIf (decide (s.getV x = s.getV y)))

/-- `9xy0` (R106). -/
def execSneVy (x y : RegIdx) (s : State) : Host.Outcome State Fault Refusal :=
  .next (s.skipIf (decide (s.getV x ≠ s.getV y)))

/-- `Bnnn` (R107): the sum is not reduced modulo 4096 (the spec's decision D22, log entry 22). -/
def execJpV0 (nnn : Imm12) (s : State) : Host.Outcome State Fault Refusal :=
  .next (s.setPc (nnn.setWidth 16 + (s.getV (jumpOffsetReg s.mode nnn)).setWidth 16))

end Machine

end Sys2Proof
end

