-- ==== Sys2Proof/Machine/Display.lean ====
section
/-! DEFINITION. Framebuffer instructions (spec/43_display.md R160 to R165). -/

namespace Sys2Proof

namespace Machine

/-- `00E0` (R160): every pixel off, `draw_pending <- 1` without condition (R24). -/
def execCls (s : State) : Host.Outcome State Fault Refusal :=
  .next { s.advance with fb := Framebuffer.clear, drawPending := true }

/-- What `Dxyn` draws: the framebuffer and the collision flag, from operands sampled before `v[15]` is written (R161, R164;
the sampling is the spec's decision D11, log entry 12). -/
def drawResult (x y : RegIdx) (n : Imm4) (s : State) : Framebuffer × Bool :=
  drawTargets s.fb (spriteTargets s.mem s.i.toNat n.toNat (s.getV x).toNat (s.getV y).toNat)

/-- `Dxyn` (R161): the range check, the draw, `v[15]` = collision, `draw_pending <- 1`; `i` is unchanged. -/
def execDrw (x y : RegIdx) (n : Imm4) (s : State) : Host.Outcome State Fault Refusal :=
  withRange n.toNat s
    ({ s.advance with fb := (drawResult x y n s).1, drawPending := true }.setFlag (flagByte (drawResult x y n s).2))

end Machine

end Sys2Proof
end

