-- ==== Sys2Proof/Machine/Environment.lean ====
section
/-! DEFINITION. Random, keypad and timer instructions (spec/44_keys_timers_random.md R170 to R177). -/

namespace Sys2Proof

namespace Machine

/-- `Cxkk` with the random byte `r`: `v[x] <- r and kk` (R170). -/
def maskRandom (r : Byte) (x : RegIdx) (kk : Byte) (s : State) : State := s.advance.setV x (r &&& kk)

/-- `Cxkk` (R170): the byte is the next free value, and the counter moves on, so that nothing relates one byte to the next
(R27; log entry 3). -/
def execRnd (x : RegIdx) (kk : Byte) (s : State) : Host.Outcome State Fault Refusal :=
  .next { maskRandom (Config.rndByte s.rndCount) x kk s with rndCount := s.rndCount + 1 }

/-- The key whose index is `v[x]`, or `Fault(KeyIndexOutOfRange, v[x])` above 15 (R177, the spec's decision D14, log entry
15); then a skip when its held flag is `wanted`. -/
def skipOnKey (x : RegIdx) (wanted : Bool) (s : State) : Host.Outcome State Fault Refusal :=
  if (s.getV x).toNat ≤ 15 then .next (s.skipIf (s.keyHeld (s.getV x).toNat == wanted))
  else .next (raise .keyIndexOutOfRange ((s.getV x).setWidth 16) s)

/-- `Ex9E` (R171). -/
def execSkp (x : RegIdx) (s : State) : Host.Outcome State Fault Refusal := skipOnKey x true s

/-- `ExA1` (R172). -/
def execSknp (x : RegIdx) (s : State) : Host.Outcome State Fault Refusal := skipOnKey x false s

/-- `Fx07` (R173; which timer word does what is the spec's decision D17, log entry 10). -/
def execLdVxDt (x : RegIdx) (s : State) : Host.Outcome State Fault Refusal :=
  .next (s.advance.setV x s.dt)

/-- `Fx0A` (R174): with no key held `pc` is rewound to `pc0`, so that nothing changes and the word is fetched again; with a
key held its index goes to `v[x]`. -/
def execLdVxK (x : RegIdx) (s : State) : Host.Outcome State Fault Refusal :=
  match s.lowestKey with
  | none => .next (s.advance.setPc (s.advance.pc - 2#16))
  | some k => .next (s.advance.setV x (BitVec.ofNat 8 k))

/-- `Fx15` (R175; D17, log entry 10). -/
def execLdDtVx (x : RegIdx) (s : State) : Host.Outcome State Fault Refusal :=
  .next { s.advance with dt := s.getV x }

/-- `Fx18` (R176; D17, log entry 10). -/
def execLdStVx (x : RegIdx) (s : State) : Host.Outcome State Fault Refusal :=
  .next { s.advance with st := s.getV x }

end Machine

end Sys2Proof
end

