-- ==== Sys2Proof/Machine/IndexMemory.lean ====
section
/-! DEFINITION. Index register, loads and stores (spec/42_index_memory.md R140 to R146). The whole range is checked before
any effect (R41). -/

namespace Sys2Proof

namespace Machine

/-- `Annn` (R140). -/
def execLdI (nnn : Imm12) (s : State) : Host.Outcome State Fault Refusal :=
  .next (s.advance.setI (nnn.setWidth 16))

/-- `Fx1E` (R141): modulo 65536 (the spec's decision D22, log entry 22), no flag. -/
def execAddIVx (x : RegIdx) (s : State) : Host.Outcome State Fault Refusal :=
  .next (s.advance.setI (s.i + (s.getV x).setWidth 16))

/-- `Fx29` (R142): `i <- 5 * v[x]`, no mask (the spec's decision D16, log entry 14). -/
def execLdFVx (x : RegIdx) (s : State) : Host.Outcome State Fault Refusal :=
  .next (s.advance.setI (BitVec.ofNat 16 (5 * (s.getV x).toNat)))

/-- `Fx33` (R143): the decimal digits of `v[x]` at `i`, `i + 1`, `i + 2`; `i` is unchanged. -/
def execLdBVx (x : RegIdx) (s : State) : Host.Outcome State Fault Refusal :=
  withRange 3 s { s.advance with mem := s.mem.writeList s.i.toNat (decimalDigits (s.getV x)) }

/-- `Fx55` (R144): `v[0..x]` to memory from `i` on, then `i` advances by the mode's amount. -/
def execLdMemVx (x : RegIdx) (s : State) : Host.Outcome State Fault Refusal :=
  withRange (x.toNat + 1) s
    { s.advance with mem := s.mem.writeList s.i.toNat (s.firstRegs (x.toNat + 1)), i := s.nextIndex x }

/-- `Fx65` (R145): memory from `i` on to `v[0..x]`, then `i` advances by the mode's amount. -/
def execLdVxMem (x : RegIdx) (s : State) : Host.Outcome State Fault Refusal :=
  withRange (x.toNat + 1) s
    { s.advance with v := loadRegs s.mem s.i.toNat (x.toNat + 1) s.v, i := s.nextIndex x }

end Machine

end Sys2Proof
end

