-- ==== Sys2Proof/Syntax.lean ====
section
/-! DEFINITION. The instructions: one constructor per row of spec/opcode_table.json (spec/30_encoding.md R65), 34 in all.
A field has the width R61 gives it, so every term is an instruction of the machine. -/

namespace Sys2Proof

/-- The 34 instructions of R65, named after the table's mnemonics. `Kk` takes an immediate where `Vy` takes a register. -/
inductive Instr where
  /-- `00E0` CLS: clear the framebuffer (R160). -/
  | cls
  /-- `00EE` RET: return (R100). -/
  | ret
  /-- `1nnn` JP nnn: jump (R101). -/
  | jp (nnn : Imm12)
  /-- `2nnn` CALL nnn: call (R102). -/
  | call (nnn : Imm12)
  /-- `3xkk` SE Vx, kk: skip if equal (R103). -/
  | seKk (x : RegIdx) (kk : Byte)
  /-- `4xkk` SNE Vx, kk: skip if not equal (R104). -/
  | sneKk (x : RegIdx) (kk : Byte)
  /-- `5xy0` SE Vx, Vy: skip if equal (R105). -/
  | seVy (x y : RegIdx)
  /-- `6xkk` LD Vx, kk (R120). -/
  | ldKk (x : RegIdx) (kk : Byte)
  /-- `7xkk` ADD Vx, kk, no flag (R121). -/
  | addKk (x : RegIdx) (kk : Byte)
  /-- `8xy0` LD Vx, Vy (R122). -/
  | ldVy (x y : RegIdx)
  /-- `8xy1` OR Vx, Vy (R123). -/
  | orVy (x y : RegIdx)
  /-- `8xy2` AND Vx, Vy (R124). -/
  | andVy (x y : RegIdx)
  /-- `8xy3` XOR Vx, Vy (R125). -/
  | xorVy (x y : RegIdx)
  /-- `8xy4` ADD Vx, Vy (R126). -/
  | addVy (x y : RegIdx)
  /-- `8xy5` SUB Vx, Vy (R127). -/
  | subVy (x y : RegIdx)
  /-- `8xy6` SHR Vx, Vy (R128). -/
  | shrVy (x y : RegIdx)
  /-- `8xy7` SUBN Vx, Vy (R129). -/
  | subnVy (x y : RegIdx)
  /-- `8xyE` SHL Vx, Vy (R130). -/
  | shlVy (x y : RegIdx)
  /-- `9xy0` SNE Vx, Vy: skip if not equal (R106). -/
  | sneVy (x y : RegIdx)
  /-- `Annn` LD I, nnn (R140). -/
  | ldI (nnn : Imm12)
  /-- `Bnnn` JP V0, nnn: jump with offset (R107); the register field of CHIP-48 mode is `nnn[11:8]` (R62). -/
  | jpV0 (nnn : Imm12)
  /-- `Cxkk` RND Vx, kk (R170). -/
  | rnd (x : RegIdx) (kk : Byte)
  /-- `Dxyn` DRW Vx, Vy, n: draw a sprite of `n` rows (R161). -/
  | drw (x y : RegIdx) (n : Imm4)
  /-- `Ex9E` SKP Vx: skip if key held (R171). -/
  | skp (x : RegIdx)
  /-- `ExA1` SKNP Vx: skip if key not held (R172). -/
  | sknp (x : RegIdx)
  /-- `Fx07` LD Vx, DT (R173). -/
  | ldVxDt (x : RegIdx)
  /-- `Fx0A` LD Vx, K: wait for a key (R174). -/
  | ldVxK (x : RegIdx)
  /-- `Fx15` LD DT, Vx (R175). -/
  | ldDtVx (x : RegIdx)
  /-- `Fx18` LD ST, Vx (R176). -/
  | ldStVx (x : RegIdx)
  /-- `Fx1E` ADD I, Vx (R141). -/
  | addIVx (x : RegIdx)
  /-- `Fx29` LD F, Vx: glyph address (R142). -/
  | ldFVx (x : RegIdx)
  /-- `Fx33` LD B, Vx: decimal digits to memory (R143). -/
  | ldBVx (x : RegIdx)
  /-- `Fx55` LD [I], Vx: store v[0..x] (R144). -/
  | ldMemVx (x : RegIdx)
  /-- `Fx65` LD Vx, [I]: load v[0..x] (R145). -/
  | ldVxMem (x : RegIdx)
  deriving DecidableEq, Repr

end Sys2Proof
end

