-- ==== Sys2Proof/WellFormed.lean ====
section
/-! DEFINITION. Which instruction words are instructions: the opcode map of spec/30_encoding.md R65 as data (match and mask
of each row), and the check a word must pass. The fields of `Instr` have the widths of R61 and "every field value is a valid
register index" (R11), so a TERM of `Instr` has no further condition; the check is on words. -/

namespace Sys2Proof

/-- One row of the opcode map: a word `op` selects it when `(op and mask) = match` (R65). -/
structure OpcodeRow where
  matchBits : Word
  mask : Word
  deriving DecidableEq, Repr

/-- The word selects the row (R65). -/
def OpcodeRow.selects (r : OpcodeRow) (op : Word) : Bool := (op &&& r.mask) == r.matchBits

/-- The row of R65 each instruction belongs to. -/
def Instr.row : Instr → OpcodeRow
  | .cls => ⟨0x00E0, 0xFFFF⟩
  | .ret => ⟨0x00EE, 0xFFFF⟩
  | .jp _ => ⟨0x1000, 0xF000⟩
  | .call _ => ⟨0x2000, 0xF000⟩
  | .seKk _ _ => ⟨0x3000, 0xF000⟩
  | .sneKk _ _ => ⟨0x4000, 0xF000⟩
  | .seVy _ _ => ⟨0x5000, 0xF00F⟩
  | .ldKk _ _ => ⟨0x6000, 0xF000⟩
  | .addKk _ _ => ⟨0x7000, 0xF000⟩
  | .ldVy _ _ => ⟨0x8000, 0xF00F⟩
  | .orVy _ _ => ⟨0x8001, 0xF00F⟩
  | .andVy _ _ => ⟨0x8002, 0xF00F⟩
  | .xorVy _ _ => ⟨0x8003, 0xF00F⟩
  | .addVy _ _ => ⟨0x8004, 0xF00F⟩
  | .subVy _ _ => ⟨0x8005, 0xF00F⟩
  | .shrVy _ _ => ⟨0x8006, 0xF00F⟩
  | .subnVy _ _ => ⟨0x8007, 0xF00F⟩
  | .shlVy _ _ => ⟨0x800E, 0xF00F⟩
  | .sneVy _ _ => ⟨0x9000, 0xF00F⟩
  | .ldI _ => ⟨0xA000, 0xF000⟩
  | .jpV0 _ => ⟨0xB000, 0xF000⟩
  | .rnd _ _ => ⟨0xC000, 0xF000⟩
  | .drw _ _ _ => ⟨0xD000, 0xF000⟩
  | .skp _ => ⟨0xE09E, 0xF0FF⟩
  | .sknp _ => ⟨0xE0A1, 0xF0FF⟩
  | .ldVxDt _ => ⟨0xF007, 0xF0FF⟩
  | .ldVxK _ => ⟨0xF00A, 0xF0FF⟩
  | .ldDtVx _ => ⟨0xF015, 0xF0FF⟩
  | .ldStVx _ => ⟨0xF018, 0xF0FF⟩
  | .addIVx _ => ⟨0xF01E, 0xF0FF⟩
  | .ldFVx _ => ⟨0xF029, 0xF0FF⟩
  | .ldBVx _ => ⟨0xF033, 0xF0FF⟩
  | .ldMemVx _ => ⟨0xF055, 0xF0FF⟩
  | .ldVxMem _ => ⟨0xF065, 0xF0FF⟩

/-- The 34 rows of R65 in the table's order. -/
def opcodeTable : List OpcodeRow :=
  [⟨0x00E0, 0xFFFF⟩, ⟨0x00EE, 0xFFFF⟩, ⟨0x1000, 0xF000⟩, ⟨0x2000, 0xF000⟩, ⟨0x3000, 0xF000⟩, ⟨0x4000, 0xF000⟩,
   ⟨0x5000, 0xF00F⟩, ⟨0x6000, 0xF000⟩, ⟨0x7000, 0xF000⟩, ⟨0x8000, 0xF00F⟩, ⟨0x8001, 0xF00F⟩, ⟨0x8002, 0xF00F⟩,
   ⟨0x8003, 0xF00F⟩, ⟨0x8004, 0xF00F⟩, ⟨0x8005, 0xF00F⟩, ⟨0x8006, 0xF00F⟩, ⟨0x8007, 0xF00F⟩, ⟨0x800E, 0xF00F⟩] ++
  [⟨0x9000, 0xF00F⟩, ⟨0xA000, 0xF000⟩, ⟨0xB000, 0xF000⟩, ⟨0xC000, 0xF000⟩, ⟨0xD000, 0xF000⟩, ⟨0xE09E, 0xF0FF⟩,
   ⟨0xE0A1, 0xF0FF⟩, ⟨0xF007, 0xF0FF⟩, ⟨0xF00A, 0xF0FF⟩, ⟨0xF015, 0xF0FF⟩, ⟨0xF018, 0xF0FF⟩, ⟨0xF01E, 0xF0FF⟩,
   ⟨0xF029, 0xF0FF⟩, ⟨0xF033, 0xF0FF⟩, ⟨0xF055, 0xF0FF⟩, ⟨0xF065, 0xF0FF⟩]

/-- The word is an instruction: it selects some row; otherwise it is an undefined word (R66). -/
def wordDefined (op : Word) : Bool := opcodeTable.any fun r => r.selects op

end Sys2Proof
end

