-- ==== Sys2Proof/Decode.lean ====
section
/-! DEFINITION. Decoding and encoding: the field extraction of spec/30_encoding.md R61 and R73, the dispatch of R64, the
undefined words of R66 rejected by name, and the encoder from the patterns of R65. -/

namespace Sys2Proof

/-- Field `o = op[15:12]` (R61). -/
def fieldO (op : Word) : BitVec 4 := op.extractLsb' 12 4

/-- Field `x = op[11:8]` (R61). -/
def fieldX (op : Word) : RegIdx := op.extractLsb' 8 4

/-- Field `y = op[7:4]` (R61). -/
def fieldY (op : Word) : RegIdx := op.extractLsb' 4 4

/-- Field `n = op[3:0]` (R61). -/
def fieldN (op : Word) : Imm4 := op.extractLsb' 0 4

/-- Field `kk = op[7:0]` (R61). -/
def fieldKk (op : Word) : Byte := op.extractLsb' 0 8

/-- Field `nnn = op[11:0]` (R61). -/
def fieldNnn (op : Word) : Imm12 := op.extractLsb' 0 12

/-- Why bytes are no instruction: the families of undefined words of R66, and a list too short for a word. -/
inductive DecodeReject where
  /-- Family 0 other than `00E0` and `00EE`: the original sys-calls, unimplemented (R66, R70). -/
  | sysCall (nnn : Imm12)
  /-- `5xyn` with `n ≠ 0` (R66, R69). -/
  | skipEqualSub (n : Imm4)
  /-- `8xyn` with `n` in 8 to D or F (R66). -/
  | aluSub (n : Imm4)
  /-- `9xyn` with `n ≠ 0` (R66, R69). -/
  | skipUnequalSub (n : Imm4)
  /-- `Exkk` with `kk` neither 9E nor A1 (R66). -/
  | keySub (kk : Byte)
  /-- `Fxkk` with `kk` none of the nine listed values (R66). -/
  | miscSub (kk : Byte)
  /-- Fewer than the two bytes of an instruction (R60). -/
  | truncated
  deriving DecidableEq, Repr

/-- Family 8: second-level dispatch on `n` (R64, R65). -/
def decodeAlu (x y : RegIdx) (n : Imm4) : Except DecodeReject Instr :=
  match n.toNat with
  | 0x0 => .ok (.ldVy x y)
  | 0x1 => .ok (.orVy x y)
  | 0x2 => .ok (.andVy x y)
  | 0x3 => .ok (.xorVy x y)
  | 0x4 => .ok (.addVy x y)
  | 0x5 => .ok (.subVy x y)
  | 0x6 => .ok (.shrVy x y)
  | 0x7 => .ok (.subnVy x y)
  | 0xE => .ok (.shlVy x y)
  | _ => .error (.aluSub n)

/-- Family E: second-level dispatch on `kk` (R64, R65). -/
def decodeKey (x : RegIdx) (kk : Byte) : Except DecodeReject Instr :=
  if kk = 0x9E#8 then .ok (.skp x)
  else if kk = 0xA1#8 then .ok (.sknp x)
  else .error (.keySub kk)

/-- Family F: second-level dispatch on `kk` (R64, R65). -/
def decodeMisc (x : RegIdx) (kk : Byte) : Except DecodeReject Instr :=
  if kk = 0x07#8 then .ok (.ldVxDt x)
  else if kk = 0x0A#8 then .ok (.ldVxK x)
  else if kk = 0x15#8 then .ok (.ldDtVx x)
  else if kk = 0x18#8 then .ok (.ldStVx x)
  else if kk = 0x1E#8 then .ok (.addIVx x)
  else if kk = 0x29#8 then .ok (.ldFVx x)
  else if kk = 0x33#8 then .ok (.ldBVx x)
  else if kk = 0x55#8 then .ok (.ldMemVx x)
  else if kk = 0x65#8 then .ok (.ldVxMem x)
  else .error (.miscSub kk)

/-- Family 0: the two exact words `00E0` and `00EE` (R64, R69; the exact matching is the spec's decision D9, log entry 16). -/
def decodeSys (nnn : Imm12) : Except DecodeReject Instr :=
  if nnn = 0x0E0#12 then .ok .cls
  else if nnn = 0x0EE#12 then .ok .ret
  else .error (.sysCall nnn)

/-- The instruction a word is, or the name of why it is none (R64, R65, R66). -/
def decodeWord (op : Word) : Except DecodeReject Instr :=
  let x := fieldX op
  let y := fieldY op
  let n := fieldN op
  let kk := fieldKk op
  let nnn := fieldNnn op
  match (fieldO op).toNat with
  | 0x0 => decodeSys nnn
  | 0x1 => .ok (.jp nnn)
  | 0x2 => .ok (.call nnn)
  | 0x3 => .ok (.seKk x kk)
  | 0x4 => .ok (.sneKk x kk)
  | 0x5 => if n = 0x0#4 then .ok (.seVy x y) else .error (.skipEqualSub n)
  | 0x6 => .ok (.ldKk x kk)
  | 0x7 => .ok (.addKk x kk)
  | 0x8 => decodeAlu x y n
  | 0x9 => if n = 0x0#4 then .ok (.sneVy x y) else .error (.skipUnequalSub n)
  | 0xA => .ok (.ldI nnn)
  | 0xB => .ok (.jpV0 nnn)
  | 0xC => .ok (.rnd x kk)
  | 0xD => .ok (.drw x y n)
  | 0xE => decodeKey x kk
  | _ => decodeMisc x kk

/-- The word two bytes make, the byte at the lower address being the most significant (R43, R60). -/
def wordOfBytes (hi lo : Byte) : Word := hi ++ lo

/-- Decoding a list of bytes: the instruction and the bytes after it (R60: every instruction is two bytes). -/
def decodeBytes : List Byte → Except DecodeReject (Instr × List Byte)
  | hi :: lo :: rest =>
    match decodeWord (wordOfBytes hi lo) with
    | .ok i => .ok (i, rest)
    | .error r => .error r
  | _ => .error .truncated

/-- Format A: `o nnn` (R61). -/
def formatA (o : BitVec 4) (nnn : Imm12) : Word := o ++ nnn

/-- Format XK: `o x kk` (R61). -/
def formatXK (o : BitVec 4) (x : RegIdx) (kk : Byte) : Word := o ++ x ++ kk

/-- Format XYN: `o x y n` (R61). -/
def formatXYN (o : BitVec 4) (x y : RegIdx) (n : Imm4) : Word := o ++ x ++ y ++ n

/-- The word of an instruction, from the patterns of R65. -/
def encode : Instr → Word
  | .cls => 0x00E0#16
  | .ret => 0x00EE#16
  | .jp nnn => formatA 0x1#4 nnn
  | .call nnn => formatA 0x2#4 nnn
  | .seKk x kk => formatXK 0x3#4 x kk
  | .sneKk x kk => formatXK 0x4#4 x kk
  | .seVy x y => formatXYN 0x5#4 x y 0x0#4
  | .ldKk x kk => formatXK 0x6#4 x kk
  | .addKk x kk => formatXK 0x7#4 x kk
  | .ldVy x y => formatXYN 0x8#4 x y 0x0#4
  | .orVy x y => formatXYN 0x8#4 x y 0x1#4
  | .andVy x y => formatXYN 0x8#4 x y 0x2#4
  | .xorVy x y => formatXYN 0x8#4 x y 0x3#4
  | .addVy x y => formatXYN 0x8#4 x y 0x4#4
  | .subVy x y => formatXYN 0x8#4 x y 0x5#4
  | .shrVy x y => formatXYN 0x8#4 x y 0x6#4
  | .subnVy x y => formatXYN 0x8#4 x y 0x7#4
  | .shlVy x y => formatXYN 0x8#4 x y 0xE#4
  | .sneVy x y => formatXYN 0x9#4 x y 0x0#4
  | .ldI nnn => formatA 0xA#4 nnn
  | .jpV0 nnn => formatA 0xB#4 nnn
  | .rnd x kk => formatXK 0xC#4 x kk
  | .drw x y n => formatXYN 0xD#4 x y n
  | .skp x => formatXK 0xE#4 x 0x9E#8
  | .sknp x => formatXK 0xE#4 x 0xA1#8
  | .ldVxDt x => formatXK 0xF#4 x 0x07#8
  | .ldVxK x => formatXK 0xF#4 x 0x0A#8
  | .ldDtVx x => formatXK 0xF#4 x 0x15#8
  | .ldStVx x => formatXK 0xF#4 x 0x18#8
  | .addIVx x => formatXK 0xF#4 x 0x1E#8
  | .ldFVx x => formatXK 0xF#4 x 0x29#8
  | .ldBVx x => formatXK 0xF#4 x 0x33#8
  | .ldMemVx x => formatXK 0xF#4 x 0x55#8
  | .ldVxMem x => formatXK 0xF#4 x 0x65#8

/-- The high byte of a word (R43). -/
def highByte (op : Word) : Byte := op.extractLsb' 8 8

/-- The low byte of a word (R43). -/
def lowByte (op : Word) : Byte := op.extractLsb' 0 8

/-- The two bytes of an instruction in memory order (R43). -/
def encodeBytes (i : Instr) : List Byte := [highByte (encode i), lowByte (encode i)]

/-- The word whose bits are `w`, as spec/opcode_table.json numbers them, every bit above `nbits` 0. -/
def tableWord (nbits w : Nat) : Word := BitVec.ofNat 16 (w % 2 ^ nbits)

/-- What the decoder reads from an instruction whose bits are `w` in the numbering of spec/opcode_table.json: the word laid
out big-endian as the hardware stores it (R43) and given to `decodeBytes`. -/
def decodeTableWord (nbits w : Nat) : Option Instr :=
  match decodeBytes [highByte (tableWord nbits w), lowByte (tableWord nbits w)] with
  | .ok (i, _) => some i
  | .error _ => none

end Sys2Proof
end

