-- ==== Sys2Proof/Machine/Fetch.lean ====
section
/-! DEFINITION. The Step cycle around the instructions (spec/30_encoding.md R63): fetch (spec/20_memory.md R43), the
undefined word (R67, R68), the halted core (R212). -/

namespace Sys2Proof

namespace Machine

/-- The instruction word at `pc`, big-endian, or `none` when `pc ≥ 4095` (R43). -/
def fetchWord (s : State) : Option Word :=
  if s.pc.toNat < Config.memSize - 1 then
    some (wordOfBytes (Memory.read s.mem s.pc.toNat) (Memory.read s.mem (s.pc.toNat + 1)))
  else none

/-- `emit DecodeError(addr, word)` (R7, R33). -/
def State.emitDecodeError (s : State) (addr word : Word) : State :=
  { s with log := s.log ++ [⟨addr, word⟩] }

/-- An undefined word: a no-op with a log record (R67), or `Fault(IllegalInstruction, op)` under STRICT_DECODE (R68). -/
def undefinedWord (op : Word) (s : State) : State :=
  if s.strictDecode then raise .illegalInstruction op s else s.advance.emitDecodeError s.pc op

/-- `Step` over a given meaning of the instructions (R63): a FAULTED core does nothing (R212); else fetch, decode, execute. -/
def stepWith (run : Instr → State → Host.Outcome State Fault Refusal) (s : State) : Host.Outcome State Fault Refusal :=
  match s.status with
  | .faulted => .next s
  | .running =>
    match fetchWord s with
    | none => .next (raise .fetchOutOfRange s.pc s)
    | some op =>
      match decodeWord op with
      | .ok i => run i s
      | .error _ => .next (undefinedWord op s)

/-- `s` with a word stored big-endian where the next fetch reads it (R43). -/
def State.placeWord (s : State) (op : Word) : State :=
  { s with mem := s.mem.writeList s.pc.toNat [highByte op, lowByte op] }

end Machine

end Sys2Proof
end

