-- ==== Sys2Proof/Machine/Step.lean ====
section
/-! DEFINITION. One `Step` of the core (spec/30_encoding.md R63) and the placing of an instruction where it is fetched. -/

namespace Sys2Proof

namespace Machine

/-- `Step(rnd)` (R63), the random byte being the next free value (log entry 3). -/
def step (s : State) : Host.Outcome State Fault Refusal := stepWith exec s

/-- `s` with the instruction whose bits are `w` (spec/opcode_table.json's numbering, bits above `nbits` 0) stored at `pc`, so
that the next `step` of a RUNNING core fetches and runs it (log entry 1). -/
def State.withFetchWord (s : State) (nbits w : Nat) : State := s.placeWord (tableWord nbits w)

end Machine

end Sys2Proof
end

