-- ==== Sys2Proof/Machine/Operations.lean ====
section
/-! DEFINITION. The host's side of the core: the operations of spec/10_state.md R31 other than `Step`, any total order of
operations (spec/20_memory.md R52), and the documented tick loop (spec/70_reset_and_hazards.md R248). -/

namespace Sys2Proof

namespace Machine

/-- `Reset(mode, rom)` with the arguments `FONT` and `STRICT_DECODE` (R240): the values of R30 and the memory image of R241,
the program cut at 3584 bytes (R242). -/
def State.resetWith (mode : Mode) (rom : List Byte) (font : Config.Font) (strict : Bool) : State :=
  { State.reset with
    mem := (Memory.writeList [] 0 font.toList).writeList Config.progBase (rom.take Config.romMax)
    mode := mode
    strictDecode := strict }

/-- `Reset` issued to a core that has run: every state element as `State.resetWith`; the log is an output stream and stays,
and the count of consumed random bytes goes on (log entry 19). -/
def State.doReset (s : State) (mode : Mode) (rom : List Byte) (font : Config.Font) (strict : Bool) : State :=
  { State.resetWith mode rom font strict with log := s.log, rndCount := s.rndCount }

/-- An operation that does nothing on a FAULTED core (R212, the spec's decision D28). -/
def State.ifRunning (s s' : State) : State :=
  match s.status with
  | .faulted => s
  | .running => s'

/-- A timer decremented if nonzero (R216). -/
def countDown (t : Byte) : Byte := if t = 0#8 then t else t - 1#8

/-- `TimerTick()` (R216). -/
def State.timerTick (s : State) : State := s.ifRunning { s with dt := countDown s.dt, st := countDown s.st }

/-- `SetKeys(k)` (R217). -/
def State.setKeys (s : State) (k : BitVec 16) : State := s.ifRunning { s with keys := k }

/-- `ReadFramebuffer()` (R218): the 2048 pixels in the order `r * 64 + c` (R23). -/
def State.readFramebuffer (s : State) : List Bool :=
  (List.range (Config.fbHeight * Config.fbWidth)).map fun k => s.fb.pixel (k / Config.fbWidth) (k % Config.fbWidth)

/-- `ConsumeDrawPending()` (R218): the flag as it was, and the state with it cleared. -/
def State.consumeDrawPending (s : State) : Bool × State := (s.drawPending, { s with drawPending := false })

/-- What `ReadStatus()` returns (R26, R31). -/
structure StatusReport where
  status : Status
  cause : BitVec 3
  pc : Word
  info : Word
  deriving DecidableEq, Repr

/-- `ReadStatus()` (R31). -/
def State.readStatus (s : State) : StatusReport := ⟨s.status, s.faultCause.code, s.faultPc, s.faultInfo⟩

/-- The seven operations of R31; the argument `rnd` of `Step` is the next free value (log entry 3). -/
inductive Operation where
  | reset (mode : Mode) (rom : List Byte) (font : Config.Font) (strict : Bool)
  | step
  | timerTick
  | setKeys (k : BitVec 16)
  | readFramebuffer
  | consumeDrawPending
  | readStatus
  deriving DecidableEq, Repr

/-- What an operation returns to the host (R31). -/
inductive OperationResult where
  | nothing
  | pixels (snapshot : List Bool)
  | flag (drawPending : Bool)
  | report (r : StatusReport)
  deriving DecidableEq, Repr

/-- The effect of an operation on the state (R31). -/
def Operation.apply (op : Operation) (s : State) : Host.Outcome State Fault Refusal :=
  match op with
  | .reset mode rom font strict => .next (s.doReset mode rom font strict)
  | .step => Sys2Proof.Machine.step s
  | .timerTick => .next s.timerTick
  | .setKeys k => .next (s.setKeys k)
  | .readFramebuffer => .next s
  | .consumeDrawPending => .next s.consumeDrawPending.2
  | .readStatus => .next s

/-- The result of an operation, read from the state before it (R31). -/
def Operation.result (op : Operation) (s : State) : OperationResult :=
  match op with
  | .reset _ _ _ _ => .nothing
  | .step => .nothing
  | .timerTick => .nothing
  | .setKeys _ => .nothing
  | .readFramebuffer => .pixels s.readFramebuffer
  | .consumeDrawPending => .flag s.consumeDrawPending.1
  | .readStatus => .report s.readStatus

/-- Operations in the one total order in which the host issues them (R52). -/
def runOperations : List Operation → State → Host.Outcome State Fault Refusal
  | [], s => .next s
  | op :: ops, s =>
    match op.apply s with
    | .next s' => runOperations ops s'
    | .fault r => .fault r
    | .refused r => .refused r

/-- The burst of R248 with at most `left + 1` more `Step`s: it ends after a `Step` that leaves `draw_pending` set or the core
FAULTED, or when the cap is reached (tested after each `Step`: the spec's decision D27). -/
def burst : Nat → State → Host.Outcome State Fault Refusal
  | 0, s => step s
  | left + 1, s =>
    match step s with
    | .next s' => if s'.drawPending || decide (s'.status = .faulted) then .next s' else burst left s'
    | .fault r => .fault r
    | .refused r => .refused r

/-- The end of a tick: timers, then the flag consumed and, if it was set, the picture presented (R248). -/
def endTick (s : State) : Option (List Bool) × State :=
  let ticked := s.timerTick
  (if ticked.consumeDrawPending.1 then some ticked.readFramebuffer else none, ticked.consumeDrawPending.2)

/-- `Tick()` of the host (R248) with `BURST_CAP = left + 1` and the key-held array `k`: the picture presented, if one is, and
the state after the tick. -/
def tick (left : Nat) (k : BitVec 16) (s : State) : Host.Outcome (Option (List Bool) × State) Fault Refusal :=
  match burst left (s.setKeys k) with
  | .next s' => .next (endTick s')
  | .fault r => .fault r
  | .refused r => .refused r

end Machine

end Sys2Proof
end

