-- ==== Sys2Proof/Safety.lean ====
section
/-! DEFINITION. The vocabulary of claims: what counts as a sound state (the invariant every step keeps), what each
instruction may write and how it may fault (spec/10_state.md R10 to R14, R25; spec/60_exceptions.md R213), and the pixels a
sprite covers (spec/43_display.md R161, R162). -/

namespace Sys2Proof

open Machine

/-! ### What each instruction may do, from the spec's lists -/

/-- The general registers an instruction may write: its destination, and `v[15]` where it writes the flag (R11, R12). -/
def Instr.writesReg (i : Instr) (k : RegIdx) : Bool :=
  match i with
  | .cls => false
  | .ret => false
  | .jp _ => false
  | .call _ => false
  | .seKk _ _ => false
  | .sneKk _ _ => false
  | .seVy _ _ => false
  | .ldKk x _ => k == x
  | .addKk x _ => k == x
  | .ldVy x _ => k == x
  | .orVy x _ => k == x || k == Config.flagReg
  | .andVy x _ => k == x || k == Config.flagReg
  | .xorVy x _ => k == x || k == Config.flagReg
  | .addVy x _ => k == x || k == Config.flagReg
  | .subVy x _ => k == x || k == Config.flagReg
  | .shrVy x _ => k == x || k == Config.flagReg
  | .subnVy x _ => k == x || k == Config.flagReg
  | .shlVy x _ => k == x || k == Config.flagReg
  | .sneVy _ _ => false
  | .ldI _ => false
  | .jpV0 _ => false
  | .rnd x _ => k == x
  | .drw _ _ _ => k == Config.flagReg
  | .skp _ => false
  | .sknp _ => false
  | .ldVxDt x => k == x
  | .ldVxK x => k == x
  | .ldDtVx _ => false
  | .ldStVx _ => false
  | .addIVx _ => false
  | .ldFVx _ => false
  | .ldBVx _ => false
  | .ldMemVx _ => false
  | .ldVxMem x => decide (k.toNat ≤ x.toNat)

/-- How many bytes an instruction stores, from address `i` on (R46): `Fx33` three, `Fx55` `x + 1`, every other none. -/
def Instr.storeLength (i : Instr) : Nat :=
  match i with
  | .ldBVx _ => 3
  | .ldMemVx x => x.toNat + 1
  | .cls | .ret | .jp _ | .call _ | .seKk _ _ | .sneKk _ _ | .seVy _ _ | .ldKk _ _ | .addKk _ _ | .ldVy _ _ | .orVy _ _
  | .andVy _ _ | .xorVy _ _ | .addVy _ _ | .subVy _ _ | .shrVy _ _ | .subnVy _ _ | .shlVy _ _ | .sneVy _ _ | .ldI _
  | .jpV0 _ | .rnd _ _ | .drw _ _ _ | .skp _ | .sknp _ | .ldVxDt _ | .ldVxK _ | .ldDtVx _ | .ldStVx _ | .addIVx _
  | .ldFVx _ | .ldVxMem _ => 0

/-- The one cause an instruction may fault with, `none` where it cannot fault (R213). -/
def Instr.faultOf (i : Instr) : FaultCause :=
  match i with
  | .ret => .stackUnderflow
  | .call _ => .stackOverflow
  | .skp _ | .sknp _ => .keyIndexOutOfRange
  | .drw _ _ _ | .ldBVx _ | .ldMemVx _ | .ldVxMem _ => .memOutOfRange
  | .cls | .jp _ | .seKk _ _ | .sneKk _ _ | .seVy _ _ | .ldKk _ _ | .addKk _ _ | .ldVy _ _ | .orVy _ _ | .andVy _ _
  | .xorVy _ _ | .addVy _ _ | .subVy _ _ | .shrVy _ _ | .subnVy _ _ | .shlVy _ _ | .sneVy _ _ | .ldI _ | .jpV0 _
  | .rnd _ _ | .ldVxDt _ | .ldVxK _ | .ldDtVx _ | .ldStVx _ | .addIVx _ | .ldFVx _ => .none

/-- The rule of the instruction writes `pc` itself: the skips, the jumps, call, return and the key wait (R14). -/
def Instr.writesPc (i : Instr) : Bool :=
  match i with
  | .ret | .jp _ | .call _ | .seKk _ _ | .sneKk _ _ | .seVy _ _ | .sneVy _ _ | .jpV0 _ | .skp _ | .sknp _
  | .ldVxK _ => true
  | .cls | .ldKk _ _ | .addKk _ _ | .ldVy _ _ | .orVy _ _ | .andVy _ _ | .xorVy _ _ | .addVy _ _ | .subVy _ _
  | .shrVy _ _ | .subnVy _ _ | .shlVy _ _ | .ldI _ | .rnd _ _ | .drw _ _ _ | .ldVxDt _ | .ldDtVx _ | .ldStVx _
  | .addIVx _ | .ldFVx _ | .ldBVx _ | .ldMemVx _ | .ldVxMem _ => false

/-- The five instructions whose behaviour depends on the mode (R25). -/
def Instr.modeDependent (i : Instr) : Bool :=
  match i with
  | .shrVy _ _ | .shlVy _ _ | .jpV0 _ | .ldMemVx _ | .ldVxMem _ => true
  | .cls | .ret | .jp _ | .call _ | .seKk _ _ | .sneKk _ _ | .seVy _ _ | .ldKk _ _ | .addKk _ _ | .ldVy _ _ | .orVy _ _
  | .andVy _ _ | .xorVy _ _ | .addVy _ _ | .subVy _ _ | .subnVy _ _ | .sneVy _ _ | .ldI _ | .rnd _ _ | .drw _ _ _
  | .skp _ | .sknp _ | .ldVxDt _ | .ldVxK _ | .ldDtVx _ | .ldStVx _ | .addIVx _ | .ldFVx _ | .ldBVx _ => false

namespace Machine

/-- The mode matters to an instruction: from some state it does one thing in CHIP-8 mode and another in CHIP-48 mode (R25). -/
def modeMatters (i : Instr) : Prop :=
  ∃ s t u : State, exec i { s with mode := .chip8 } = .next t ∧ exec i { s with mode := .chip48 } = .next u ∧
    u ≠ { t with mode := .chip48 }

/-- The operation is `Reset` (R31). -/
def Operation.isReset (op : Operation) : Bool :=
  match op with
  | .reset _ _ _ _ => true
  | .step | .timerTick | .setKeys _ | .readFramebuffer | .consumeDrawPending | .readStatus => false

/-! ### The invariant -/

/-- The fault registers of a FAULTED state describe the fault as the table of R201 does. -/
def State.faultRecorded (s : State) : Bool :=
  match s.faultCause with
  | .none => false
  | .fetchOutOfRange => decide (4095 ≤ s.pc.toNat) && decide (s.faultInfo = s.pc)
  | .memOutOfRange => decide (4080 < s.i.toNat) && decide (s.faultInfo = s.i)
  | .stackOverflow => decide (s.sp = 16) && decide (s.faultInfo = 16#16)
  | .stackUnderflow => decide (s.sp = 0) && decide (s.faultInfo = 0#16)
  | .keyIndexOutOfRange => decide (15 < s.faultInfo.toNat) && decide (s.faultInfo.toNat ≤ 255)
  | .illegalInstruction => s.strictDecode && !wordDefined s.faultInfo

/-- The fault registers and the status agree: 0 while RUNNING (R26, R201); while FAULTED they describe the fault and
`fault_pc` is the `pc` it left (R209, R210). -/
def State.faultCoherent (s : State) : Bool :=
  match s.status with
  | .running => decide (s.faultCause = .none) && decide (s.faultPc = 0#16) && decide (s.faultInfo = 0#16)
  | .faulted => s.faultRecorded && decide (s.faultPc = s.pc)

/-- A sound state: memory is canonical; `pc` is within the bound of R16; so is every live stack entry (R16, R19: a pushed
value is at most 4096); the fault registers are coherent. The bound of `sp` (R19) holds by the type of `sp`. -/
abbrev State.Inv (s : State) : Prop :=
  s.mem.wf = true ∧ s.pc.toNat ≤ 0x10FE ∧ (∀ k : Fin 16, k.val < s.sp.val → s.stack[k].toNat ≤ 4096) ∧
    s.faultCoherent = true

/-! ### Pixels -/

/-- A pixel of the screen is the target of a set bit of the sprite `Dxyn` draws from state `s`, by R161 and R162: reduced
coordinates when the origin is outside, plain ones otherwise (a bit that falls outside has no pixel). -/
def spriteCovers (s : State) (x y : RegIdx) (n : Imm4) (r c : Nat) : Prop :=
  ∃ row < n.toNat, ∃ col < 8, (s.mem.read (s.i.toNat + row)).getLsbD (7 - col) = true ∧
    if 64 ≤ (s.getV x).toNat ∨ 32 ≤ (s.getV y).toNat then
      ((s.getV y).toNat + row) % 32 = r ∧ ((s.getV x).toNat + col) % 64 = c
    else (s.getV y).toNat + row = r ∧ (s.getV x).toNat + col = c

/-- Some pixel goes from on to off when `Dxyn` draws from state `s` (R161, R163). -/
def spriteCollides (s : State) (x y : RegIdx) (n : Imm4) : Prop :=
  ∃ r < 32, ∃ c < 64, spriteCovers s x y n r c ∧ s.fb.pixel r c = true

/-! ### Relations between two states -/

/-- The two states agree in everything but the sound timer. -/
def sameButSoundTimer (s t : State) : Prop := t = { s with st := t.st }

/-- The two states agree in everything but stack entries not in use. -/
def sameButDeadStack (s t : State) : Prop :=
  t = { s with stack := t.stack } ∧ ∀ k : Fin 16, k.val < s.sp.val → t.stack[k] = s.stack[k]

end Machine

end Sys2Proof
end

