-- ==== Sys2Proof/Certificates/Slice0/Obligations.lean ====
section
/-! DEFINITION. The statements for the provers, from the numbered rules of spec/. A statement that rests on one of the spec's
own decisions (92_eei_decisions.md D<n>) or on a choice of the model (a log entry) says so in its docstring. -/

open Sys2Proof Sys2Proof.Machine

/-! ### Encoding -/

/-- A word decodes to an instruction exactly when it is that instruction's encoding, and the two bytes of the encoding decode
to it with the rest of the bytes left over (R60, R61, R65). -/
def Obligations.DecodeInvertsEncode : Prop :=
  (∀ (w : Word) (i : Instr), decodeWord w = .ok i ↔ encode i = w) ∧
  (∀ (i : Instr) (rest : List Byte), decodeBytes (encodeBytes i ++ rest) = .ok (i, rest))

/-- The decoder accepts exactly the words that select a row of R65, and gives an instruction of the row selected. The exact
matching in families 0, 5 and 9 is the spec's decision D9 (log entry 16). -/
def Obligations.DecodeAcceptsExactlyTheTable : Prop :=
  ∀ w : Word, ((∃ i, decodeWord w = .ok i) ↔ wordDefined w = true) ∧
    ∀ i, decodeWord w = .ok i → i.row.selects w = true

/-- "The rows of rule R65 are pairwise disjoint (no word matches two rows)" (R64). -/
def Obligations.OpcodeRowsDisjoint : Prop :=
  ∀ (w : Word) (r r' : OpcodeRow), r ∈ opcodeTable → r' ∈ opcodeTable → r.selects w = true → r'.selects w = true → r = r'

/-- A few words written out from the encodings of the 4N files decode to their instructions. -/
def Obligations.SampleWordsDecode : Prop :=
  decodeWord 0b0000000011100000#16 = .ok .cls ∧
  decodeWord 0b0010001100000000#16 = .ok (.call 0x300#12) ∧
  decodeWord 0b0111000100000010#16 = .ok (.addKk 1#4 2#8) ∧
  decodeWord 0b1000000100101110#16 = .ok (.shlVy 1#4 2#4) ∧
  decodeWord 0b1010001011110000#16 = .ok (.ldI 0x2F0#12) ∧
  decodeWord 0b1101000000010101#16 = .ok (.drw 0#4 1#4 5#4) ∧
  decodeWord 0b1111001101010101#16 = .ok (.ldMemVx 3#4) ∧
  decodeWord 0b0101000100100001#16 = .error (.skipEqualSub 1#4)

/-! ### The Step cycle -/

/-- The word a `Step` fetches is the byte at `pc` times 256 plus the byte at `pc + 1`, at any parity; there is none at
`pc ≥ 4095` (R43, R45). -/
def Obligations.FetchReadsBigEndianWord : Prop :=
  ∀ s : State,
    (s.pc.toNat ≤ 4094 → ∃ w, fetchWord s = some w ∧
      w.toNat = (s.mem.read s.pc.toNat).toNat * 256 + (s.mem.read (s.pc.toNat + 1)).toNat) ∧
    (4095 ≤ s.pc.toNat → fetchWord s = none)

/-- When the bytes at `pc` decode to an instruction, `step` of a RUNNING core is that instruction's meaning at the same state
(R63; the meanings include the fetch advance, log entry 6). -/
def Obligations.StepRunsDecodedInstruction : Prop :=
  ∀ (s : State) (i : Instr) (rest : List Byte), s.status = .running → s.pc.toNat ≤ 4094 →
    decodeBytes (s.mem.read s.pc.toNat :: s.mem.read (s.pc.toNat + 1) :: rest) = .ok (i, rest) → step s = exec i s

/-- A `Step` at `pc ≥ 4095` raises FetchOutOfRange, code 1: status, cause, `fault_pc` and `fault_info` are written, nothing
else (R43, R201, R202; fault entry is the spec's decision D3, the code D4, the fatal reading D5). -/
def Obligations.FetchOutOfRangeFaults : Prop :=
  FaultCause.fetchOutOfRange.code = 1#3 ∧
  ∀ s : State, s.status = .running → 4095 ≤ s.pc.toNat →
    step s = .next { s with status := .faulted, faultCause := .fetchOutOfRange, faultPc := s.pc, faultInfo := s.pc }

/-- An undefined word. Without STRICT_DECODE `pc` advances by 2, one log record is emitted, nothing else changes; under
STRICT_DECODE it raises IllegalInstruction, code 6, with the word as detail and no record (R67, R68, R201, R207, R208; the
spec's decisions D3, D4, D8 and D9; the log is kept in State by log entry 4, the configuration by log entry 5). -/
def Obligations.UndefinedWordNoopOrFault : Prop :=
  FaultCause.illegalInstruction.code = 6#3 ∧
  ∀ (s : State) (w : Word), s.status = .running → fetchWord s = some w → wordDefined w = false →
    (s.strictDecode = false →
      step s = .next { s with pc := s.pc + 2#16, log := s.log ++ [⟨s.pc, w⟩] }) ∧
    (s.strictDecode = true →
      step s = .next { s with status := .faulted, faultCause := .illegalInstruction, faultPc := s.pc, faultInfo := w })

/-- `Step`, `TimerTick` and `SetKeys` change nothing on a FAULTED core, and the reading operations leave the fault registers
alone; so without a `Reset` no schedule of operations leaves FAULTED or changes more than `draw_pending` (R211, R212; the
spec's decisions D3 and D28). The codes `ReadStatus` returns are in the statement of each cause. -/
def Obligations.FaultedCoreIsFrozen : Prop :=
  ∀ s : State, s.status = .faulted →
    step s = .next s ∧ s.timerTick = s ∧ (∀ k, s.setKeys k = s) ∧
    s.consumeDrawPending = (s.drawPending, { s with drawPending := false }) ∧
    s.readStatus = ⟨.faulted, s.faultCause.code, s.faultPc, s.faultInfo⟩ ∧
    (∀ ops : List Operation, (∀ op ∈ ops, op.isReset = false) →
      ∃ t, runOperations ops s = .next t ∧ t = { s with drawPending := t.drawPending })

/-! ### Control transfer -/

/-- `1nnn` loads `pc` with the zero-extended 12-bit field and changes nothing else; its word is 0x1000 plus the field
(R101). -/
def Obligations.JumpLoadsPc : Prop :=
  ∀ (nnn : Imm12) (s : State), (encode (.jp nnn)).toNat = 0x1000 + nnn.toNat ∧
    exec (.jp nnn) s = .next { s with pc := BitVec.ofNat 16 nnn.toNat }

/-- `2nnn` with room on the stack pushes `pc0 + 2` and jumps; every other entry and element is unchanged (R102, R18). -/
def Obligations.CallPushesReturnAddress : Prop :=
  ∀ (nnn : Imm12) (s : State) (h : s.sp.val < 16), ∃ t, exec (.call nnn) s = .next t ∧
    t.pc = BitVec.ofNat 16 nnn.toNat ∧ t.sp.val = s.sp.val + 1 ∧
    t.stack[s.sp.val]'h = s.pc + 2#16 ∧ (∀ k : Fin 16, k.val ≠ s.sp.val → t.stack[k] = s.stack[k]) ∧
    t = { s with pc := t.pc, sp := t.sp, stack := t.stack }

/-- `00EE` with a live entry decrements `sp` and loads `pc` from the entry it then indexes; nothing else changes, the stack
array included (R100). -/
def Obligations.ReturnPopsPc : Prop :=
  ∀ s : State, 0 < s.sp.val → ∃ t, exec .ret s = .next t ∧ t.sp.val = s.sp.val - 1 ∧
    (∀ k : Fin 16, k.val = s.sp.val - 1 → t.pc = s.stack[k]) ∧ t = { s with pc := t.pc, sp := t.sp }

/-- A call on a full stack raises StackOverflow, code 3, with detail 16, a return on an empty one StackUnderflow, code 4, with
detail 0, and nothing else changes (R201, R204, R205; the spec's decisions D3, D4 and D7). -/
def Obligations.StackLimitsFault : Prop :=
  FaultCause.stackOverflow.code = 3#3 ∧ FaultCause.stackUnderflow.code = 4#3 ∧
  (∀ (nnn : Imm12) (s : State), s.sp = 16 → exec (.call nnn) s =
    .next { s with status := .faulted, faultCause := .stackOverflow, faultPc := s.pc, faultInfo := 16#16 }) ∧
  (∀ s : State, s.sp = 0 → exec .ret s =
    .next { s with status := .faulted, faultCause := .stackUnderflow, faultPc := s.pc, faultInfo := 0#16 })

/-- "`00EE` after `2nnn` returns `pc` to the instruction immediately following the original call", from any state that has
the stack the call left (R100, R102). -/
def Obligations.ReturnAfterCall : Prop :=
  ∀ (nnn : Imm12) (s t u : State), s.sp.val < 16 → exec (.call nnn) s = .next t → u.sp = t.sp → u.stack = t.stack →
    ∃ u', exec .ret u = .next u' ∧ u'.pc = s.pc + 2#16 ∧ u'.sp = s.sp

/-- `3xkk` skips when `v[x] = kk`, `4xkk` when `v[x] ≠ kk`; only `pc` changes; and their words (R103, R104). -/
def Obligations.SkipOnImmediate : Prop :=
  ∀ (x : RegIdx) (kk : Byte) (s : State),
    (encode (.seKk x kk)).toNat = 0x3000 + x.toNat * 256 + kk.toNat ∧
    (encode (.sneKk x kk)).toNat = 0x4000 + x.toNat * 256 + kk.toNat ∧
    exec (.seKk x kk) s = .next { s with pc := if s.getV x = kk then s.pc + 4#16 else s.pc + 2#16 } ∧
    exec (.sneKk x kk) s = .next { s with pc := if s.getV x = kk then s.pc + 2#16 else s.pc + 4#16 }

/-- `5xy0` skips when `v[x] = v[y]`, `9xy0` when they differ; only `pc` changes; and their words, the low nibble 0 (R105,
R106; that other low nibbles are undefined words is the spec's decision D9, not stated here). -/
def Obligations.SkipOnRegister : Prop :=
  ∀ (x y : RegIdx) (s : State),
    (encode (.seVy x y)).toNat = 0x5000 + x.toNat * 256 + y.toNat * 16 ∧
    (encode (.sneVy x y)).toNat = 0x9000 + x.toNat * 256 + y.toNat * 16 ∧
    exec (.seVy x y) s = .next { s with pc := if s.getV x = s.getV y then s.pc + 4#16 else s.pc + 2#16 } ∧
    exec (.sneVy x y) s = .next { s with pc := if s.getV x = s.getV y then s.pc + 2#16 else s.pc + 4#16 }

/-- `Bnnn`: `pc` is `nnn` plus `v[0]` in CHIP-8 mode, plus the register numbered by the top nibble of `nnn` in CHIP-48 mode;
nothing else changes (R107; that the sum is not reduced modulo 4096 is the spec's decision D22, log entry 22). -/
def Obligations.JumpWithOffset : Prop :=
  ∀ (nnn : Imm12) (s : State),
    (s.mode = .chip8 → exec (.jpV0 nnn) s = .next { s with pc := BitVec.ofNat 16 (nnn.toNat + (s.getV 0#4).toNat) }) ∧
    (s.mode = .chip48 → exec (.jpV0 nnn) s =
      .next { s with pc := BitVec.ofNat 16 (nnn.toNat + (s.getV (BitVec.ofNat 4 (nnn.toNat / 256))).toNat) })

/-! ### Load and ALU -/

/-- `6xkk` loads the immediate and `8xy0` copies a register: the destination receives it, every other register keeps its
value, `pc` advances by 2, nothing else changes; and their words (R120, R122). -/
def Obligations.LoadImmediateAndCopy : Prop :=
  ∀ (x y : RegIdx) (kk : Byte) (s : State),
    (encode (.ldKk x kk)).toNat = 0x6000 + x.toNat * 256 + kk.toNat ∧
    (encode (.ldVy x y)).toNat = 0x8000 + x.toNat * 256 + y.toNat * 16 ∧
    (∃ t, exec (.ldKk x kk) s = .next t ∧ (∀ k, t.getV k = if k = x then kk else s.getV k) ∧
      t = { s with v := t.v, pc := s.pc + 2#16 }) ∧
    (∃ t, exec (.ldVy x y) s = .next t ∧ (∀ k, t.getV k = if k = x then s.getV y else s.getV k) ∧
      t = { s with v := t.v, pc := s.pc + 2#16 })

/-- `7xkk` adds modulo 256 and writes no flag: `v[15]` keeps its value unless it is the destination; and its word
(R121). -/
def Obligations.AddImmediateWritesNoFlag : Prop :=
  ∀ (x : RegIdx) (kk : Byte) (s : State), (encode (.addKk x kk)).toNat = 0x7000 + x.toNat * 256 + kk.toNat ∧
    ∃ t, exec (.addKk x kk) s = .next t ∧
    (t.getV x).toNat = ((s.getV x).toNat + kk.toNat) % 256 ∧ (∀ k, k ≠ x → t.getV k = s.getV k) ∧
    t = { s with v := t.v, pc := s.pc + 2#16 }

/-- `8xy1`, `8xy2`, `8xy3`: the bitwise result in `v[x]`, then `v[15]` reset to 0, which wins when `x = 15` ("afterward",
R123, R124, R125); and their words. -/
def Obligations.LogicResetsFlag : Prop :=
  ∀ (x y : RegIdx) (s : State),
    (encode (.orVy x y)).toNat = 0x8001 + x.toNat * 256 + y.toNat * 16 ∧
    (encode (.andVy x y)).toNat = 0x8002 + x.toNat * 256 + y.toNat * 16 ∧
    (encode (.xorVy x y)).toNat = 0x8003 + x.toNat * 256 + y.toNat * 16 ∧
    (∃ t, exec (.orVy x y) s = .next t ∧ t = { s with v := t.v, pc := s.pc + 2#16 } ∧
      ∀ k, t.getV k = if k = 0xF#4 then 0#8 else if k = x then s.getV x ||| s.getV y else s.getV k) ∧
    (∃ t, exec (.andVy x y) s = .next t ∧ t = { s with v := t.v, pc := s.pc + 2#16 } ∧
      ∀ k, t.getV k = if k = 0xF#4 then 0#8 else if k = x then s.getV x &&& s.getV y else s.getV k) ∧
    (∃ t, exec (.xorVy x y) s = .next t ∧ t = { s with v := t.v, pc := s.pc + 2#16 } ∧
      ∀ k, t.getV k = if k = 0xF#4 then 0#8 else if k = x then s.getV x ^^^ s.getV y else s.getV k)

/-- `8xy4`: the sum modulo 256 in `v[x]`, and `v[15]` 1 exactly when the unsigned sum exceeds 255, else 0 (R126). For
`x = 15` the flag wins: the spec's decision D10 (log entry 11). -/
def Obligations.AddSetsCarry : Prop :=
  ∀ (x y : RegIdx) (s : State), ∃ t, exec (.addVy x y) s = .next t ∧ t = { s with v := t.v, pc := s.pc + 2#16 } ∧
    ∀ k, t.getV k =
      if k = 0xF#4 then (if 255 < (s.getV x).toNat + (s.getV y).toNat then 1#8 else 0#8)
      else if k = x then BitVec.ofNat 8 ((s.getV x).toNat + (s.getV y).toNat) else s.getV k

/-- `8xy5` and `8xy7`: the difference modulo 256 in `v[x]`, and `v[15]` 1 exactly when no borrow occurred, equality included
(R127, R129). For `x = 15` the flag wins: the spec's decision D10 (log entry 11). -/
def Obligations.SubtractSetsNoBorrow : Prop :=
  ∀ (x y : RegIdx) (s : State),
    (∃ t, exec (.subVy x y) s = .next t ∧ t = { s with v := t.v, pc := s.pc + 2#16 } ∧
      ∀ k, t.getV k =
        if k = 0xF#4 then (if (s.getV y).toNat ≤ (s.getV x).toNat then 1#8 else 0#8)
        else if k = x then BitVec.ofNat 8 (256 + (s.getV x).toNat - (s.getV y).toNat) else s.getV k) ∧
    (∃ t, exec (.subnVy x y) s = .next t ∧ t = { s with v := t.v, pc := s.pc + 2#16 } ∧
      ∀ k, t.getV k =
        if k = 0xF#4 then (if (s.getV x).toNat ≤ (s.getV y).toNat then 1#8 else 0#8)
        else if k = x then BitVec.ofNat 8 (256 + (s.getV y).toNat - (s.getV x).toNat) else s.getV k)

/-- `8xy6`: `v[x]` receives half of `v[y]` (CHIP-8) or of `v[x]` (CHIP-48), `v[15]` the bit shifted out (R128). For `x = 15`
the flag wins: the spec's decision D10 (log entry 11). -/
def Obligations.ShiftRightByMode : Prop :=
  ∀ (x y : RegIdx) (s : State) (a : Byte),
    (s.mode = .chip8 ∧ a = s.getV y) ∨ (s.mode = .chip48 ∧ a = s.getV x) →
    ∃ t, exec (.shrVy x y) s = .next t ∧ t = { s with v := t.v, pc := s.pc + 2#16 } ∧
      ∀ k, t.getV k =
        if k = 0xF#4 then BitVec.ofNat 8 (a.toNat % 2)
        else if k = x then BitVec.ofNat 8 (a.toNat / 2) else s.getV k

/-- `8xyE`: `v[x]` receives twice `v[y]` (CHIP-8) or `v[x]` (CHIP-48) modulo 256, `v[15]` the bit 7 shifted out (R130). For
`x = 15` the flag wins: the spec's decision D10 (log entry 11). -/
def Obligations.ShiftLeftByMode : Prop :=
  ∀ (x y : RegIdx) (s : State) (a : Byte),
    (s.mode = .chip8 ∧ a = s.getV y) ∨ (s.mode = .chip48 ∧ a = s.getV x) →
    ∃ t, exec (.shlVy x y) s = .next t ∧ t = { s with v := t.v, pc := s.pc + 2#16 } ∧
      ∀ k, t.getV k =
        if k = 0xF#4 then BitVec.ofNat 8 (a.toNat / 128)
        else if k = x then BitVec.ofNat 8 (a.toNat * 2) else s.getV k

/-- The mode affects exactly the five listed instructions (R25). Any other one does the same under either mode, and the mode
itself stays. Each of the five does different things from some state: the shifts whenever `x ≠ y`, `Bnnn` whenever the top
nibble of `nnn` is not 0, `Fx55` and `Fx65` for every `x`. -/
def Obligations.ModeAffectsOnlyFive : Prop :=
  (∀ (i : Instr) (s : State) (m : Mode), i.modeDependent = false →
    ∃ t, exec i s = .next t ∧ exec i { s with mode := m } = .next { t with mode := m }) ∧
  (∀ x y : RegIdx, x ≠ y → modeMatters (.shrVy x y) ∧ modeMatters (.shlVy x y)) ∧
  (∀ nnn : Imm12, 0x100 ≤ nnn.toNat → modeMatters (.jpV0 nnn)) ∧
  (∀ x : RegIdx, modeMatters (.ldMemVx x) ∧ modeMatters (.ldVxMem x))

/-! ### Index register and memory -/

/-- `Annn` loads `i` with the zero-extended 12-bit field; and its word (R140). -/
def Obligations.LoadIndexRegister : Prop :=
  ∀ (nnn : Imm12) (s : State), (encode (.ldI nnn)).toNat = 0xA000 + nnn.toNat ∧
    exec (.ldI nnn) s = .next { s with i := BitVec.ofNat 16 nnn.toNat, pc := s.pc + 2#16 }

/-- `Fx1E` adds `v[x]` to `i` modulo 65536 and writes no flag (R141; no 12-bit mask is the spec's decision D22). -/
def Obligations.AddToIndexRegister : Prop :=
  ∀ (x : RegIdx) (s : State), exec (.addIVx x) s =
    .next { s with i := BitVec.ofNat 16 (s.i.toNat + (s.getV x).toNat), pc := s.pc + 2#16 }

/-- `Fx29` points `i` at `5 * v[x]`, the glyph's first address (R142; above digit 15 the formula is the spec's decision D16,
log entry 14). -/
def Obligations.GlyphAddress : Prop :=
  ∀ (x : RegIdx) (s : State),
    exec (.ldFVx x) s = .next { s with i := BitVec.ofNat 16 (5 * (s.getV x).toNat), pc := s.pc + 2#16 }

/-- `Fx33` in range stores hundreds, tens and ones of `v[x]` at `i`, `i + 1`, `i + 2`; every other byte, `i` and every
register keep their value (R143). -/
def Obligations.StoreDecimalDigits : Prop :=
  ∀ (x : RegIdx) (s : State), s.mem.wf = true → s.i.toNat + 2 ≤ 4095 → ∃ t, exec (.ldBVx x) s = .next t ∧
    (t.mem.read s.i.toNat).toNat = (s.getV x).toNat / 100 ∧
    (t.mem.read (s.i.toNat + 1)).toNat = (s.getV x).toNat / 10 % 10 ∧
    (t.mem.read (s.i.toNat + 2)).toNat = (s.getV x).toNat % 10 ∧
    (∀ a, a < s.i.toNat ∨ s.i.toNat + 3 ≤ a → t.mem.read a = s.mem.read a) ∧
    t = { s with mem := t.mem, pc := s.pc + 2#16 }

/-- `Fx55` in range stores `v[k]` at `i + k` for `k = 0..x`; `i` advances by `x + 1` (CHIP-8) or `x` (CHIP-48); every other
byte and every register keep their value (R144). -/
def Obligations.StoreRegisters : Prop :=
  ∀ (x : RegIdx) (s : State), s.mem.wf = true → s.i.toNat + x.toNat ≤ 4095 → ∃ t, exec (.ldMemVx x) s = .next t ∧
    (∀ k : RegIdx, k.toNat ≤ x.toNat → t.mem.read (s.i.toNat + k.toNat) = s.getV k) ∧
    (∀ a, a < s.i.toNat ∨ s.i.toNat + x.toNat < a → t.mem.read a = s.mem.read a) ∧
    (s.mode = .chip8 → t.i.toNat = s.i.toNat + x.toNat + 1) ∧ (s.mode = .chip48 → t.i.toNat = s.i.toNat + x.toNat) ∧
    t = { s with mem := t.mem, i := t.i, pc := s.pc + 2#16 }

/-- `Fx65` in range loads `v[k]` from `i + k` for `k = 0..x`; registers above `x` keep their value; `i` advances by `x + 1`
(CHIP-8) or `x` (CHIP-48); memory is unchanged (R145). -/
def Obligations.LoadRegisters : Prop :=
  ∀ (x : RegIdx) (s : State), s.i.toNat + x.toNat ≤ 4095 → ∃ t, exec (.ldVxMem x) s = .next t ∧
    (∀ k : RegIdx, t.getV k = if k.toNat ≤ x.toNat then s.mem.read (s.i.toNat + k.toNat) else s.getV k) ∧
    (s.mode = .chip8 → t.i.toNat = s.i.toNat + x.toNat + 1) ∧ (s.mode = .chip48 → t.i.toNat = s.i.toNat + x.toNat) ∧
    t = { s with v := t.v, i := t.i, pc := s.pc + 2#16 }

/-- "storing `v[0..x]` to memory at `i` then loading the same range back into `v[0..x]` reproduces the original register
values exactly", whatever the registers hold in between (R144, R145). -/
def Obligations.StoreLoadRoundTrip : Prop :=
  ∀ (x : RegIdx) (s t : State) (v' : Vector Byte 16) (pc' : Word), s.mem.wf = true → s.i.toNat + x.toNat ≤ 4095 →
    exec (.ldMemVx x) s = .next t → ∃ u, exec (.ldVxMem x) { t with i := s.i, v := v', pc := pc' } = .next u ∧
      (∀ k : RegIdx, k.toNat ≤ x.toNat → u.getV k = s.getV k) ∧ u.mem = t.mem ∧ u.i = t.i

/-- A data access with some address above 4095 raises MemOutOfRange, code 2, with detail `i` before any effect (R201, R203; the
spec's decisions D3, D4 and D6). -/
def Obligations.DataAccessOutOfRangeFaults : Prop :=
  FaultCause.memOutOfRange.code = 2#3 ∧
  ∀ (x y : RegIdx) (n : Imm4) (s t : State),
    t = { s with status := .faulted, faultCause := .memOutOfRange, faultPc := s.pc, faultInfo := s.i } →
    (4095 < s.i.toNat + 2 → exec (.ldBVx x) s = .next t) ∧
    (4095 < s.i.toNat + x.toNat → exec (.ldMemVx x) s = .next t ∧ exec (.ldVxMem x) s = .next t) ∧
    (1 ≤ n.toNat → 4095 < s.i.toNat + n.toNat - 1 → exec (.drw x y n) s = .next t)

/-! ### Framebuffer -/

/-- `00E0` turns every pixel off and sets `draw_pending`; `v[15]` and everything else keep their value (R160). -/
def Obligations.ClearScreen : Prop :=
  ∀ s : State, ∃ t, exec .cls s = .next t ∧ (∀ r c, t.fb.pixel r c = false) ∧
    t = { s with fb := t.fb, drawPending := true, pc := s.pc + 2#16 }

/-- `Dxyn` in range inverts exactly the pixels its set bits cover, sets `v[15]` to 1 if one of them was on and to 0 if none
was, and sets `draw_pending`; with `n = 0` no range is checked (R161, R163, R165). The sampling of the operands before the
flag is the spec's decision D11, one wrap mode for both axes D12 (log entry 12). -/
def Obligations.DrawInvertsCoveredPixels : Prop :=
  ∀ (x y : RegIdx) (n : Imm4) (s : State), n = 0#4 ∨ s.i.toNat + n.toNat - 1 ≤ 4095 →
    ∃ t, exec (.drw x y n) s = .next t ∧
      (∀ r < 32, ∀ c < 64, t.fb.pixel r c = true ↔ ¬ (s.fb.pixel r c = true ↔ spriteCovers s x y n r c)) ∧
      (spriteCollides s x y n → t.getV 0xF#4 = 1#8) ∧ (¬ spriteCollides s x y n → t.getV 0xF#4 = 0#8) ∧
      (∀ k, k ≠ 0xF#4 → t.getV k = s.getV k) ∧
      t = { s with fb := t.fb, v := t.v, drawPending := true, pc := s.pc + 2#16 }

/-- "Drawing the same sprite twice at the same place restores the framebuffer (XOR)" (R165 (h)): the place is the same when
the first draw's flag leaves the two coordinate registers as they were. -/
def Obligations.DrawTwiceRestoresScreen : Prop :=
  ∀ (x y : RegIdx) (n : Imm4) (s t u : State), exec (.drw x y n) s = .next t → t.getV x = s.getV x →
    t.getV y = s.getV y → exec (.drw x y n) t = .next u → u.fb = s.fb

/-- With the origin inside the screen nothing wraps: a pixel left of, above, right of or below the sprite's 8 by `n` box keeps
its value (R162). -/
def Obligations.InsideOriginClips : Prop :=
  ∀ (x y : RegIdx) (n : Imm4) (s t : State), (s.getV x).toNat ≤ 63 → (s.getV y).toNat ≤ 31 →
    exec (.drw x y n) s = .next t → ∀ r c,
      c < (s.getV x).toNat ∨ (s.getV x).toNat + 8 ≤ c ∨ r < (s.getV y).toNat ∨ (s.getV y).toNat + n.toNat ≤ r →
      t.fb.pixel r c = s.fb.pixel r c

/-! ### Random, keys, timers -/

/-- `Cxkk` puts the next random byte under the mask into `v[x]`, and the next `Cxkk` gets another byte; the byte is a free
value, so this holds for every byte (R27, R170; the byte as an input is the spec's decision D20, the counter log entry 3). -/
def Obligations.RandomByteUnderMask : Prop :=
  ∀ (x : RegIdx) (kk : Byte) (s : State), ∃ t, exec (.rnd x kk) s = .next t ∧
    (∀ k, t.getV k = if k = x then Config.rndByte s.rndCount &&& kk else s.getV k) ∧ t.rndCount = s.rndCount + 1 ∧
    t = { s with v := t.v, pc := s.pc + 2#16, rndCount := t.rndCount }

/-- `Ex9E` skips when the key `v[x]` is held, `ExA1` when it is not, for an index 0 to 15; only `pc` changes (R171, R172). -/
def Obligations.SkipOnKey : Prop :=
  ∀ (x : RegIdx) (s : State), (s.getV x).toNat ≤ 15 →
    exec (.skp x) s =
      .next { s with pc := if s.keys.getLsbD (s.getV x).toNat then s.pc + 4#16 else s.pc + 2#16 } ∧
    exec (.sknp x) s =
      .next { s with pc := if s.keys.getLsbD (s.getV x).toNat then s.pc + 2#16 else s.pc + 4#16 }

/-- A key index above 15 raises KeyIndexOutOfRange, code 5, with the index as detail; nothing is masked (R177, R201, R206; the
spec's decisions D3, D4 and D14, log entry 15). -/
def Obligations.KeyIndexOutOfRangeFaults : Prop :=
  FaultCause.keyIndexOutOfRange.code = 5#3 ∧
  ∀ (x : RegIdx) (s t : State), 15 < (s.getV x).toNat →
    t = { s with status := .faulted, faultCause := .keyIndexOutOfRange, faultPc := s.pc,
                 faultInfo := BitVec.ofNat 16 (s.getV x).toNat } →
    exec (.skp x) s = .next t ∧ exec (.sknp x) s = .next t

/-- `Fx0A` with no key held changes nothing at all: `pc` is back at the instruction (R174). -/
def Obligations.KeyWaitChangesNothing : Prop :=
  ∀ (x : RegIdx) (s : State), (∀ k < 16, s.keys.getLsbD k = false) → exec (.ldVxK x) s = .next s

/-- `Fx0A` with a key held puts the index of a held key into `v[x]` and advances; that it is the least one is the spec's
decision D15 (R174, log entry 13). -/
def Obligations.KeyWaitCapturesLeastKey : Prop :=
  ∀ (x : RegIdx) (s : State), (∃ k < 16, s.keys.getLsbD k = true) → ∃ t, exec (.ldVxK x) s = .next t ∧
    (t.getV x).toNat < 16 ∧ s.keys.getLsbD (t.getV x).toNat = true ∧
    (∀ j < (t.getV x).toNat, s.keys.getLsbD j = false) ∧ (∀ k, k ≠ x → t.getV k = s.getV k) ∧
    t = { s with v := t.v, pc := s.pc + 2#16 }

/-- `Fx07` reads DT, `Fx15` writes DT, `Fx18` writes ST; nothing else changes (R173, R175, R176; the assignment is the spec's
decision D17, log entry 10). -/
def Obligations.TimerInstructions : Prop :=
  ∀ (x : RegIdx) (s : State),
    (∃ t, exec (.ldVxDt x) s = .next t ∧ (∀ k, t.getV k = if k = x then s.dt else s.getV k) ∧
      t = { s with v := t.v, pc := s.pc + 2#16 }) ∧
    exec (.ldDtVx x) s = .next { s with dt := s.getV x, pc := s.pc + 2#16 } ∧
    exec (.ldStVx x) s = .next { s with st := s.getV x, pc := s.pc + 2#16 }

/-! ### Host operations -/

/-- `TimerTick` decrements each timer if nonzero, independently, and does nothing else; on a FAULTED core it does nothing
(R216). -/
def Obligations.TimerTickCountsDown : Prop :=
  ∀ s : State,
    (s.status = .faulted → s.timerTick = s) ∧
    (s.status = .running → s.timerTick = { s with dt := s.timerTick.dt, st := s.timerTick.st } ∧
      s.timerTick.dt.toNat = s.dt.toNat - 1 ∧ s.timerTick.st.toNat = s.st.toNat - 1)

/-- `SetKeys(k)` sets `keys[j] <- k[j]` and changes nothing else; on a FAULTED core it changes nothing (R217). -/
def Obligations.SetKeysReplacesAllKeys : Prop :=
  ∀ (k : BitVec 16) (s : State),
    (s.status = .faulted → s.setKeys k = s) ∧
    (s.status = .running → s.setKeys k = { s with keys := (s.setKeys k).keys } ∧
      ∀ j : Nat, j < 16 → (s.setKeys k).keyHeld j = k.getLsbD j)

/-- `ReadFramebuffer` returns the 2048 pixels and changes nothing; `ConsumeDrawPending` returns the flag and clears it (R218);
the order `r * 64 + c` is the spec's decision D24. -/
def Obligations.FramebufferPort : Prop :=
  ∀ s : State,
    Operation.readFramebuffer.apply s = .next s ∧ s.readFramebuffer.length = 2048 ∧
    (∀ r < 32, ∀ c < 64, s.readFramebuffer[r * 64 + c]? = some (s.fb.pixel r c)) ∧
    Operation.consumeDrawPending.apply s = .next { s with drawPending := false } ∧
    Operation.consumeDrawPending.result s = .flag s.drawPending

/-- The memory image after `Reset(mode, rom)` issued to any state: the font, the program cut at 3584 bytes, 0 elsewhere (R241,
R242). -/
def Obligations.ResetMemoryImage : Prop :=
  ∀ (s : State) (mode : Mode) (rom : List Byte) (font : Config.Font) (strict : Bool) (a : Nat), a < 4096 →
    (s.doReset mode rom font strict).mem.read a =
      if h : a < 80 then font[a]
      else if 0x200 ≤ a ∧ a - 0x200 < min rom.length 3584 then rom.getD (a - 0x200) 0#8
      else 0#8

/-- `Reset` as the host issues it, at any time and also on a FAULTED core, sets every element of R10 to the value of R30
(R240): the state is `State.resetWith` of the arguments, whatever it was before, but for the log and the random counter, which
are the model's own fields and go on (log entry 19). Of the values, `pc` and the mode are the source's, the zeros the spec's
decision D18, the status D3, the 0 of the stack entries inside `State.resetWith` the model's (log entry 2). `State.reset` is
the case of CHIP-8 mode, an empty rom, the default FONT and no strict decoding (log entry 1). -/
def Obligations.ResetValues : Prop :=
  State.reset = State.resetWith .chip8 [] Config.font false ∧
  ∀ (s : State) (mode : Mode) (rom : List Byte) (font : Config.Font) (strict : Bool), ∃ t,
    (Operation.reset mode rom font strict).apply s = .next t ∧
    t = { State.resetWith mode rom font strict with log := s.log, rndCount := s.rndCount } ∧
    t.pc = 0x200#16 ∧ t.mode = mode ∧ t.strictDecode = strict ∧ (∀ k, t.getV k = 0#8) ∧ t.i = 0#16 ∧ t.sp = 0 ∧
    t.dt = 0#8 ∧ t.st = 0#8 ∧ t.keys = 0#16 ∧ (∀ r c, t.fb.pixel r c = false) ∧ t.drawPending = false ∧
    t.readStatus = ⟨.running, 0#3, 0#16, 0#16⟩

/-- The host's tick loop with `BURST_CAP = left + 1` (R248, R249). A burst is `k` steps for some `k` from 1 to the cap, and no
state before the last has `draw_pending` set or is FAULTED; that the test comes after each `Step` is the spec's decision D27.
A tick sets the keys, runs one burst, ticks the timers once and consumes the flag; it presents the framebuffer exactly when
the flag was set. -/
def Obligations.BurstIsBoundedRun : Prop :=
  (∀ (left : Nat) (s t : State), burst left s = .next t → ∃ k, 1 ≤ k ∧ k ≤ left + 1 ∧
    runOperations (List.replicate k .step) s = .next t ∧
    (∀ j u, 1 ≤ j → j < k → runOperations (List.replicate j .step) s = .next u → u.drawPending = false ∧ u.status = .running) ∧
    (k < left + 1 → t.drawPending = true ∨ t.status = .faulted)) ∧
  (∀ (left : Nat) (keys : BitVec 16) (s : State), ∃ t, burst left (s.setKeys keys) = .next t ∧
    tick left keys s = .next (if t.drawPending then some t.readFramebuffer else none,
      { t.timerTick with drawPending := false }))

/-! ### Frames and whole-machine rules -/

/-- A general register that an instruction does not write by R11 and R12 keeps its value, whatever the instruction does. -/
def Obligations.GeneralRegisterFrame : Prop :=
  ∀ (i : Instr) (s t : State), exec i s = .next t → ∀ k, i.writesReg k = false → t.getV k = s.getV k

/-- Every byte of memory outside the bytes an instruction stores keeps its value: `Fx33` stores three from address `i` on,
`Fx55` `x + 1`, every other instruction none (R40, R46). -/
def Obligations.MemoryFrame : Prop :=
  ∀ (i : Instr) (s t : State), exec i s = .next t →
    ∀ a, a < s.i.toNat ∨ s.i.toNat + i.storeLength ≤ a → t.mem.read a = s.mem.read a

/-- Who writes what (R10): `i` only `Annn`, `Fx1E`, `Fx29`, `Fx55`, `Fx65`; the stack array only `2nnn`, `sp` only `2nnn` and
`00EE`; DT only `Fx15`, ST only `Fx18`. -/
def Obligations.IndexStackTimerFrame : Prop :=
  ∀ (i : Instr) (s t : State), exec i s = .next t →
    ((∀ nnn, i ≠ .ldI nnn) → (∀ x, i ≠ .addIVx x ∧ i ≠ .ldFVx x ∧ i ≠ .ldMemVx x ∧ i ≠ .ldVxMem x) → t.i = s.i) ∧
    ((∀ nnn, i ≠ .call nnn) → t.stack = s.stack) ∧
    ((∀ nnn, i ≠ .call nnn) → i ≠ .ret → t.sp = s.sp) ∧
    ((∀ x, i ≠ .ldDtVx x) → t.dt = s.dt) ∧ ((∀ x, i ≠ .ldStVx x) → t.st = s.st)

/-- Who writes what (R10): the framebuffer and `draw_pending` only `00E0` and `Dxyn`; no instruction writes the keys, the mode
or the configuration; the model's log and random counter move only as log entries 3 and 4 say. And of the host's operations
only `Reset` changes the mode or the configuration (R240). -/
def Obligations.ScreenKeysModeFrame : Prop :=
  (∀ (op : Operation) (s t : State), op.isReset = false → op.apply s = .next t →
    t.mode = s.mode ∧ t.strictDecode = s.strictDecode) ∧
  ∀ (i : Instr) (s t : State), exec i s = .next t →
    (i ≠ .cls → (∀ x y n, i ≠ .drw x y n) → t.fb = s.fb ∧ t.drawPending = s.drawPending) ∧
    (s.drawPending = true → t.drawPending = true) ∧
    t.keys = s.keys ∧ t.mode = s.mode ∧ t.strictDecode = s.strictDecode ∧ t.log = s.log ∧
    ((∀ x kk, i ≠ .rnd x kk) → t.rndCount = s.rndCount)

/-- An instruction whose rule does not write `pc` ends at `pc0 + 2` unless it faults, and a faulting one leaves `pc` at `pc0`
(R14, R210; the latter is the spec's decision D3). -/
def Obligations.PcAdvancesByTwo : Prop :=
  ∀ (i : Instr) (s t : State), s.status = .running → exec i s = .next t →
    (i.writesPc = false → t.status = .running → t.pc = s.pc + 2#16) ∧ (t.status = .faulted → t.pc = s.pc)

/-- Faults are precise and each instruction has at most its one cause: a RUNNING core that an instruction leaves FAULTED
differs from before only in the status and the fault registers; one it leaves RUNNING has the fault registers it had
(R209, R210, R213; the spec's decision D3). -/
def Obligations.FaultsArePrecise : Prop :=
  ∀ (i : Instr) (s : State), s.status = .running → ∃ t, exec i s = .next t ∧
    (t.status = .faulted → i.faultOf ≠ .none ∧
      t = { s with status := .faulted, faultCause := i.faultOf, faultPc := s.pc, faultInfo := t.faultInfo }) ∧
    (t.status = .running → t.faultCause = s.faultCause ∧ t.faultPc = s.faultPc ∧ t.faultInfo = s.faultInfo)

/-! ### Headline results -/

/-- Every step answers a next state, from every state; and from every sound state it is sound: memory canonical, `pc` and the
live stack entries within the bounds of R16, the fault registers coherent with R201. -/
def Obligations.StepKeepsSoundState : Prop :=
  ∀ s : State, (∃ t, step s = .next t) ∧ (s.Inv → ∀ t, step s = .next t → t.Inv)

/-- The state after every `Reset` is sound, whatever the state before; `State.reset` is too. -/
def Obligations.ResetIsSound : Prop :=
  State.reset.Inv ∧ ∀ (s : State) mode rom font strict, (s.doReset mode rom font strict).Inv

/-- Every total order of host operations (R31, R52) runs to its end from a sound state and ends in a sound state. -/
def Obligations.OperationsKeepSoundState : Prop :=
  ∀ (ops : List Operation) (s : State), s.Inv → ∃ t, runOperations ops s = .next t ∧ t.Inv

/-- "No instruction reads" the sound timer: two states that differ only in it step to states that differ only in it
(R21, R220). -/
def Obligations.SoundTimerIsUnobservable : Prop :=
  ∀ s s' : State, sameButSoundTimer s s' → ∃ t t', step s = .next t ∧ step s' = .next t' ∧ sameButSoundTimer t t'

/-- Stack entries not in use are "never observable": two states that differ only in them step to states that differ only in
them (R19). -/
def Obligations.DeadStackIsUnobservable : Prop :=
  ∀ s s' : State, sameButDeadStack s s' → ∃ t t', step s = .next t ∧ step s' = .next t' ∧ sameButDeadStack t t'
end

