-- ==== Sys2Proof/Laws/Encoding.lean ====
section
/-! SUPPORT. Bits and fields (spec/30_encoding.md R61) of the word formats, and a word as its two bytes (R43). -/

namespace Sys2Proof

/-! ### Bits of the formats -/

theorem getLsbD_formatA (o : BitVec 4) (nnn : Imm12) (k : Nat) :
    (formatA o nnn).getLsbD k = if k < 12 then nnn.getLsbD k else o.getLsbD (k - 12) := by
  unfold formatA
  exact BitVec.getLsbD_append

theorem getLsbD_formatXK (o : BitVec 4) (x : RegIdx) (kk : Byte) (k : Nat) :
    (formatXK o x kk).getLsbD k =
      if k < 8 then kk.getLsbD k else if k - 8 < 4 then x.getLsbD (k - 8) else o.getLsbD (k - 8 - 4) := by
  unfold formatXK
  rw [← BitVec.getLsbD_append (x := o) (y := x)]
  exact BitVec.getLsbD_append

theorem getLsbD_formatXYN (o : BitVec 4) (x y : RegIdx) (n : Imm4) (k : Nat) :
    (formatXYN o x y n).getLsbD k =
      if k < 4 then n.getLsbD k else if k - 4 < 4 then y.getLsbD (k - 4)
      else if k - 4 - 4 < 4 then x.getLsbD (k - 4 - 4) else o.getLsbD (k - 4 - 4 - 4) := by
  unfold formatXYN
  rw [← BitVec.getLsbD_append (x := o) (y := x), ← BitVec.getLsbD_append (x := o ++ x) (y := y)]
  exact BitVec.getLsbD_append

theorem getLsbD_wordOfBytes (hi lo : Byte) (k : Nat) :
    (wordOfBytes hi lo).getLsbD k = if k < 8 then lo.getLsbD k else hi.getLsbD (k - 8) := by
  unfold wordOfBytes
  exact BitVec.getLsbD_append

/-! ### Fields of the formats -/

@[simp] theorem fieldO_formatA (o : BitVec 4) (nnn : Imm12) : fieldO (formatA o nnn) = o := by
  apply BitVec.eq_of_getLsbD_eq; intro k hk; simp [fieldO, getLsbD_formatA, hk]

@[simp] theorem fieldNnn_formatA (o : BitVec 4) (nnn : Imm12) : fieldNnn (formatA o nnn) = nnn := by
  apply BitVec.eq_of_getLsbD_eq; intro k hk; simp [fieldNnn, getLsbD_formatA, hk]

@[simp] theorem fieldO_formatXK (o : BitVec 4) (x : RegIdx) (kk : Byte) : fieldO (formatXK o x kk) = o := by
  apply BitVec.eq_of_getLsbD_eq; intro k hk
  simp [fieldO, getLsbD_formatXK, hk, show 12 + k - 8 - 4 = k by omega, show ¬ 12 + k < 8 by omega,
    show ¬ 12 + k - 8 < 4 by omega]

@[simp] theorem fieldX_formatXK (o : BitVec 4) (x : RegIdx) (kk : Byte) : fieldX (formatXK o x kk) = x := by
  apply BitVec.eq_of_getLsbD_eq; intro k hk; simp [fieldX, getLsbD_formatXK, hk]

@[simp] theorem fieldKk_formatXK (o : BitVec 4) (x : RegIdx) (kk : Byte) : fieldKk (formatXK o x kk) = kk := by
  apply BitVec.eq_of_getLsbD_eq; intro k hk; simp [fieldKk, getLsbD_formatXK, hk]

@[simp] theorem fieldO_formatXYN (o : BitVec 4) (x y : RegIdx) (n : Imm4) : fieldO (formatXYN o x y n) = o := by
  apply BitVec.eq_of_getLsbD_eq; intro k hk
  simp [fieldO, getLsbD_formatXYN, hk, show ¬ 12 + k < 4 by omega, show ¬ 12 + k - 4 < 4 by omega,
    show ¬ 12 + k - 4 - 4 < 4 by omega, show 12 + k - 4 - 4 - 4 = k by omega]

@[simp] theorem fieldX_formatXYN (o : BitVec 4) (x y : RegIdx) (n : Imm4) : fieldX (formatXYN o x y n) = x := by
  apply BitVec.eq_of_getLsbD_eq; intro k hk
  simp [fieldX, getLsbD_formatXYN, hk, show ¬ 8 + k < 4 by omega, show ¬ 8 + k - 4 < 4 by omega,
    show 8 + k - 4 - 4 = k by omega]

@[simp] theorem fieldY_formatXYN (o : BitVec 4) (x y : RegIdx) (n : Imm4) : fieldY (formatXYN o x y n) = y := by
  apply BitVec.eq_of_getLsbD_eq; intro k hk; simp [fieldY, getLsbD_formatXYN, hk]

@[simp] theorem fieldN_formatXYN (o : BitVec 4) (x y : RegIdx) (n : Imm4) : fieldN (formatXYN o x y n) = n := by
  apply BitVec.eq_of_getLsbD_eq; intro k hk; simp [fieldN, getLsbD_formatXYN, hk]

/-! ### A word from its fields, and from its bytes -/

theorem formatA_fields (w : Word) : formatA (fieldO w) (fieldNnn w) = w := by
  apply BitVec.eq_of_getLsbD_eq; intro k hk
  rw [getLsbD_formatA]
  split
  · next h => simp [fieldNnn, h]
  · next h => simp [fieldO, show k - 12 < 4 by omega, show 12 + (k - 12) = k by omega]

theorem formatXK_fields (w : Word) : formatXK (fieldO w) (fieldX w) (fieldKk w) = w := by
  apply BitVec.eq_of_getLsbD_eq; intro k hk
  rw [getLsbD_formatXK]
  split
  · next h => simp [fieldKk, h]
  · split
    · next h1 h2 => simp [fieldX, h2, show 8 + (k - 8) = k by omega]
    · next h1 h2 => simp [fieldO, show k - 8 - 4 < 4 by omega, show 12 + (k - 8 - 4) = k by omega]

theorem formatXYN_fields (w : Word) : formatXYN (fieldO w) (fieldX w) (fieldY w) (fieldN w) = w := by
  apply BitVec.eq_of_getLsbD_eq; intro k hk
  rw [getLsbD_formatXYN]
  split
  · next h => simp [fieldN, h]
  · split
    · next h1 h2 => simp [fieldY, h2, show 4 + (k - 4) = k by omega]
    · split
      · next h1 h2 h3 => simp [fieldX, h3, show 8 + (k - 4 - 4) = k by omega]
      · next h1 h2 h3 => simp [fieldO, show k - 4 - 4 - 4 < 4 by omega, show 12 + (k - 4 - 4 - 4) = k by omega]

@[simp] theorem wordOfBytes_high_low (w : Word) : wordOfBytes (highByte w) (lowByte w) = w := by
  apply BitVec.eq_of_getLsbD_eq; intro k hk
  rw [getLsbD_wordOfBytes]
  split
  · next h => simp [lowByte, h]
  · next h => simp [highByte, show k - 8 < 8 by omega, show 8 + (k - 8) = k by omega]

/-- The byte at the lower address is the most significant one (R43). -/
theorem wordOfBytes_toNat (hi lo : Byte) : (wordOfBytes hi lo).toNat = hi.toNat * 256 + lo.toNat := by
  unfold wordOfBytes
  change (hi ++ lo).toNat = _
  rw [BitVec.toNat_append, ← Nat.shiftLeft_add_eq_or_of_lt lo.isLt, Nat.shiftLeft_eq]

/-! ### The formats as numbers -/

theorem formatA_toNat (o : BitVec 4) (nnn : Imm12) : (formatA o nnn).toNat = o.toNat * 4096 + nnn.toNat := by
  unfold formatA
  change (o ++ nnn).toNat = _
  rw [BitVec.toNat_append, ← Nat.shiftLeft_add_eq_or_of_lt nnn.isLt, Nat.shiftLeft_eq]

theorem formatXK_toNat (o : BitVec 4) (x : RegIdx) (kk : Byte) :
    (formatXK o x kk).toNat = o.toNat * 4096 + x.toNat * 256 + kk.toNat := by
  unfold formatXK
  change (o ++ x ++ kk).toNat = _
  rw [BitVec.toNat_append, ← Nat.shiftLeft_add_eq_or_of_lt kk.isLt, Nat.shiftLeft_eq, BitVec.toNat_append,
    ← Nat.shiftLeft_add_eq_or_of_lt x.isLt, Nat.shiftLeft_eq]
  omega

theorem formatXYN_toNat (o : BitVec 4) (x y : RegIdx) (n : Imm4) :
    (formatXYN o x y n).toNat = o.toNat * 4096 + x.toNat * 256 + y.toNat * 16 + n.toNat := by
  unfold formatXYN
  change (o ++ x ++ y ++ n).toNat = _
  rw [BitVec.toNat_append, ← Nat.shiftLeft_add_eq_or_of_lt n.isLt, Nat.shiftLeft_eq, BitVec.toNat_append,
    ← Nat.shiftLeft_add_eq_or_of_lt y.isLt, Nat.shiftLeft_eq, BitVec.toNat_append,
    ← Nat.shiftLeft_add_eq_or_of_lt x.isLt, Nat.shiftLeft_eq]
  omega

/-! ### Masks -/

theorem formatA_and (o o' : BitVec 4) (nnn nnn' : Imm12) :
    formatA o nnn &&& formatA o' nnn' = formatA (o &&& o') (nnn &&& nnn') := by
  apply BitVec.eq_of_getLsbD_eq; intro k hk
  simp only [BitVec.getLsbD_and, getLsbD_formatA]; split <;> rfl

theorem formatXK_and (o o' : BitVec 4) (x x' : RegIdx) (kk kk' : Byte) :
    formatXK o x kk &&& formatXK o' x' kk' = formatXK (o &&& o') (x &&& x') (kk &&& kk') := by
  apply BitVec.eq_of_getLsbD_eq; intro k hk
  simp only [BitVec.getLsbD_and, getLsbD_formatXK]; repeat' split
  all_goals rfl

theorem formatXYN_and (o o' : BitVec 4) (x x' y y' : RegIdx) (n n' : Imm4) :
    formatXYN o x y n &&& formatXYN o' x' y' n' = formatXYN (o &&& o') (x &&& x') (y &&& y') (n &&& n') := by
  apply BitVec.eq_of_getLsbD_eq; intro k hk
  simp only [BitVec.getLsbD_and, getLsbD_formatXYN]; repeat' split
  all_goals rfl

theorem formatA_masked (o : BitVec 4) (nnn : Imm12) : formatA o nnn &&& 0xF000#16 = formatA o 0#12 := by
  rw [show 0xF000#16 = formatA 0xF#4 0#12 from rfl, formatA_and, BitVec.and_zero,
    show (0xF#4) = BitVec.allOnes 4 from rfl, BitVec.and_allOnes]

theorem formatXK_masked (o : BitVec 4) (x : RegIdx) (kk : Byte) :
    formatXK o x kk &&& 0xF000#16 = formatXK o 0#4 0#8 := by
  rw [show 0xF000#16 = formatXK 0xF#4 0#4 0#8 from rfl, formatXK_and, BitVec.and_zero, BitVec.and_zero,
    show (0xF#4) = BitVec.allOnes 4 from rfl, BitVec.and_allOnes]

theorem formatXK_masked_sub (o : BitVec 4) (x : RegIdx) (kk : Byte) :
    formatXK o x kk &&& 0xF0FF#16 = formatXK o 0#4 kk := by
  rw [show 0xF0FF#16 = formatXK 0xF#4 0#4 0xFF#8 from rfl, formatXK_and, BitVec.and_zero,
    show (0xF#4) = BitVec.allOnes 4 from rfl, show (0xFF#8) = BitVec.allOnes 8 from rfl,
    BitVec.and_allOnes, BitVec.and_allOnes]

theorem formatXYN_masked (o : BitVec 4) (x y : RegIdx) (n : Imm4) :
    formatXYN o x y n &&& 0xF000#16 = formatXYN o 0#4 0#4 0#4 := by
  rw [show 0xF000#16 = formatXYN 0xF#4 0#4 0#4 0#4 from rfl, formatXYN_and, BitVec.and_zero, BitVec.and_zero,
    BitVec.and_zero, show (0xF#4) = BitVec.allOnes 4 from rfl, BitVec.and_allOnes]

theorem formatXYN_masked_sub (o : BitVec 4) (x y : RegIdx) (n : Imm4) :
    formatXYN o x y n &&& 0xF00F#16 = formatXYN o 0#4 0#4 n := by
  rw [show 0xF00F#16 = formatXYN 0xF#4 0#4 0#4 0xF#4 from rfl, formatXYN_and, BitVec.and_zero, BitVec.and_zero,
    show (0xF#4) = BitVec.allOnes 4 from rfl, BitVec.and_allOnes, BitVec.and_allOnes]

end Sys2Proof
end

