-- ==== Sys2Proof/Laws/Memory.lean ====
section
/-! SUPPORT. The laws of memory (spec/20_memory.md R41, R42): a read after a write, the bytes a write leaves alone, and the
canonical form every operation keeps. -/

namespace Sys2Proof

namespace Machine

theorem Memory.wfFrom_mono {lo lo' : Nat} {m : Memory} (h : Memory.wfFrom lo' m = true) (hl : lo ≤ lo') :
    Memory.wfFrom lo m = true := by
  cases m with
  | nil => rfl
  | cons c rest =>
    obtain ⟨a, b⟩ := c
    simp only [Memory.wfFrom, Bool.and_eq_true, decide_eq_true_eq] at h ⊢
    exact ⟨⟨⟨by omega, h.1.1.2⟩, h.1.2⟩, h.2⟩

/-- An address below every listed one is not listed. -/
theorem Memory.read_of_lt {lo : Nat} {m : Memory} (h : Memory.wfFrom lo m = true) {a : Nat} (ha : a < lo) :
    Memory.read m a = Memory.initial a := by
  induction m generalizing lo with
  | nil => rfl
  | cons c rest ih =>
    obtain ⟨a', b⟩ := c
    simp only [Memory.wfFrom, Bool.and_eq_true, decide_eq_true_eq] at h
    have hne : a ≠ a' := by omega
    simp only [Memory.read, hne, if_false]
    exact ih h.2 (by omega)

theorem Memory.consCell_wfFrom {a lo : Nat} {b : Byte} {rest : Memory} (h : Memory.wfFrom (a + 1) rest = true)
    (hl : lo ≤ a) (ha : a < Config.memSize) : Memory.wfFrom lo (Memory.consCell a b rest) = true := by
  unfold Memory.consCell
  split
  · exact Memory.wfFrom_mono h (by omega)
  · next hb =>
    simp only [Memory.wfFrom, Bool.and_eq_true, decide_eq_true_eq]
    exact ⟨⟨⟨hl, ha⟩, hb⟩, h⟩

theorem Memory.insert_wfFrom {lo a : Nat} {b : Byte} {m : Memory} (h : Memory.wfFrom lo m = true) (hl : lo ≤ a)
    (ha : a < Config.memSize) : Memory.wfFrom lo (Memory.insert m a b) = true := by
  induction m generalizing lo with
  | nil => exact Memory.consCell_wfFrom rfl hl ha
  | cons c rest ih =>
    obtain ⟨a', b'⟩ := c
    have h0 := h
    simp only [Memory.wfFrom, Bool.and_eq_true, decide_eq_true_eq] at h
    unfold Memory.insert
    split
    · next hlt =>
      refine Memory.consCell_wfFrom ?_ hl ha
      simp only [Memory.wfFrom, Bool.and_eq_true, decide_eq_true_eq]
      exact ⟨⟨⟨by omega, h.1.1.2⟩, h.1.2⟩, h.2⟩
    · split
      · next e => subst e; exact Memory.consCell_wfFrom h.2 hl ha
      · next h1 h2 =>
        simp only [Memory.wfFrom, Bool.and_eq_true, decide_eq_true_eq]
        exact ⟨⟨⟨h.1.1.1, h.1.1.2⟩, h.1.2⟩, ih h.2 (by omega)⟩

/-- A write keeps the canonical form. -/
theorem Memory.write_wf {m : Memory} (h : m.wf = true) (a : Nat) (b : Byte) : (m.write a b).wf = true := by
  unfold Memory.write
  split
  · next ha => exact Memory.insert_wfFrom h (Nat.zero_le a) ha
  · exact h

/-- A list of writes keeps the canonical form. -/
theorem Memory.writeList_wf {m : Memory} (h : m.wf = true) (a : Nat) (bs : List Byte) : (m.writeList a bs).wf = true := by
  induction bs generalizing m a with
  | nil => exact h
  | cons b bs ih => exact ih (Memory.write_wf h a b) (a + 1)

theorem Memory.read_consCell_same {a : Nat} {b : Byte} {rest : Memory} (h : Memory.wfFrom (a + 1) rest = true) :
    Memory.read (Memory.consCell a b rest) a = b := by
  unfold Memory.consCell
  split
  · next e => rw [Memory.read_of_lt h (by omega), e]
  · simp [Memory.read]

theorem Memory.read_consCell_other {a c : Nat} {b : Byte} {rest : Memory} (h : c ≠ a) :
    Memory.read (Memory.consCell a b rest) c = Memory.read rest c := by
  unfold Memory.consCell
  split
  · rfl
  · simp [Memory.read, h]

theorem Memory.read_insert_same {lo a : Nat} {b : Byte} {m : Memory} (h : Memory.wfFrom lo m = true) :
    Memory.read (Memory.insert m a b) a = b := by
  induction m generalizing lo with
  | nil => exact Memory.read_consCell_same rfl
  | cons c rest ih =>
    obtain ⟨a', b'⟩ := c
    simp only [Memory.wfFrom, Bool.and_eq_true, decide_eq_true_eq] at h
    unfold Memory.insert
    split
    · next hlt =>
      refine Memory.read_consCell_same ?_
      simp only [Memory.wfFrom, Bool.and_eq_true, decide_eq_true_eq]
      exact ⟨⟨⟨by omega, h.1.1.2⟩, h.1.2⟩, h.2⟩
    · split
      · next e => subst e; exact Memory.read_consCell_same h.2
      · next h1 h2 => simp only [Memory.read, h2, if_false]; exact ih h.2

theorem Memory.read_insert_other {a c : Nat} {b : Byte} {m : Memory} (h : c ≠ a) :
    Memory.read (Memory.insert m a b) c = Memory.read m c := by
  induction m with
  | nil => exact Memory.read_consCell_other h
  | cons p rest ih =>
    obtain ⟨a', b'⟩ := p
    unfold Memory.insert
    split
    · exact Memory.read_consCell_other h
    · split
      · next e => subst e; rw [Memory.read_consCell_other h]; simp [Memory.read, h]
      · simp only [Memory.read, ih]

/-- A read after a write to the same address gives the byte written (R42). -/
theorem Memory.read_write_same {m : Memory} (h : m.wf = true) {a : Nat} (ha : a < Config.memSize) (b : Byte) :
    (m.write a b).read a = b := by
  simp only [Memory.write, ha, if_true]
  exact Memory.read_insert_same h

/-- A write changes the byte at its address and nothing else (R42). -/
theorem Memory.read_write_other (m : Memory) {a c : Nat} (h : c ≠ a) (b : Byte) : (m.write a b).read c = m.read c := by
  unfold Memory.write
  split
  · exact Memory.read_insert_other h
  · rfl

/-- A list of writes leaves every address outside its range alone; no canonical form is needed. -/
theorem Memory.read_writeList_other (m : Memory) {a c : Nat} {bs : List Byte} (h : c < a ∨ a + bs.length ≤ c) :
    (m.writeList a bs).read c = m.read c := by
  induction bs generalizing m a with
  | nil => rfl
  | cons b bs ih =>
    simp only [List.length_cons] at h
    simp only [Memory.writeList]
    rw [ih _ (by omega), Memory.read_write_other _ (by omega)]

/-- A list of writes inside memory puts byte `k` of the list at address `a + k`. -/
theorem Memory.read_writeList_at {m : Memory} (h : m.wf = true) {a k : Nat} {bs : List Byte}
    (hb : a + bs.length ≤ Config.memSize) (hk : k < bs.length) : (m.writeList a bs).read (a + k) = bs[k] := by
  induction bs generalizing m a k with
  | nil => simp at hk
  | cons b bs ih =>
    simp only [List.length_cons] at hb hk
    simp only [Memory.writeList]
    cases k with
    | zero =>
      rw [Memory.read_writeList_other _ (by omega)]
      simpa using Memory.read_write_same h (by omega) b
    | succ k =>
      have := ih (Memory.write_wf h a b) (a := a + 1) (k := k) (by omega) (by omega)
      rw [show a + (k + 1) = a + 1 + k by omega, this]
      rfl

theorem Memory.writeList_append (m : Memory) (a : Nat) (bs cs : List Byte) :
    m.writeList a (bs ++ cs) = (m.writeList a bs).writeList (a + bs.length) cs := by
  induction bs generalizing m a with
  | nil => rfl
  | cons b bs ih => simp only [List.cons_append, Memory.writeList, ih, List.length_cons]; congr 1; omega

/-- The memory of `State.reset` has the canonical form. -/
theorem State.reset_mem_wf : State.reset.mem.wf = true := rfl

/-- The memory of every `Reset` has the canonical form. -/
theorem State.resetWith_mem_wf (mode : Mode) (rom : List Byte) (font : Config.Font) (strict : Bool) :
    (State.resetWith mode rom font strict).mem.wf = true :=
  Memory.writeList_wf (Memory.writeList_wf rfl _ _) _ _

end Machine

end Sys2Proof
end

