-- ==== Sys2Proof/Laws/State.lean ====
section
/-! SUPPORT. One lemma per field of `State` per update, so that no proof unfolds a record update. -/

namespace Sys2Proof

namespace Machine

/-! ### `setV` -/

@[simp] theorem State.setV_mem (s : State) (x : RegIdx) (b : Byte) : (s.setV x b).mem = s.mem := rfl
@[simp] theorem State.setV_v (s : State) (x : RegIdx) (b : Byte) : (s.setV x b).v = s.v.set x.toNat b x.isLt := rfl
@[simp] theorem State.setV_i (s : State) (x : RegIdx) (b : Byte) : (s.setV x b).i = s.i := rfl
@[simp] theorem State.setV_pc (s : State) (x : RegIdx) (b : Byte) : (s.setV x b).pc = s.pc := rfl
@[simp] theorem State.setV_stack (s : State) (x : RegIdx) (b : Byte) : (s.setV x b).stack = s.stack := rfl
@[simp] theorem State.setV_sp (s : State) (x : RegIdx) (b : Byte) : (s.setV x b).sp = s.sp := rfl
@[simp] theorem State.setV_dt (s : State) (x : RegIdx) (b : Byte) : (s.setV x b).dt = s.dt := rfl
@[simp] theorem State.setV_st (s : State) (x : RegIdx) (b : Byte) : (s.setV x b).st = s.st := rfl
@[simp] theorem State.setV_keys (s : State) (x : RegIdx) (b : Byte) : (s.setV x b).keys = s.keys := rfl
@[simp] theorem State.setV_fb (s : State) (x : RegIdx) (b : Byte) : (s.setV x b).fb = s.fb := rfl
@[simp] theorem State.setV_drawPending (s : State) (x : RegIdx) (b : Byte) : (s.setV x b).drawPending = s.drawPending := rfl
@[simp] theorem State.setV_mode (s : State) (x : RegIdx) (b : Byte) : (s.setV x b).mode = s.mode := rfl
@[simp] theorem State.setV_status (s : State) (x : RegIdx) (b : Byte) : (s.setV x b).status = s.status := rfl
@[simp] theorem State.setV_faultCause (s : State) (x : RegIdx) (b : Byte) : (s.setV x b).faultCause = s.faultCause := rfl
@[simp] theorem State.setV_faultPc (s : State) (x : RegIdx) (b : Byte) : (s.setV x b).faultPc = s.faultPc := rfl
@[simp] theorem State.setV_faultInfo (s : State) (x : RegIdx) (b : Byte) : (s.setV x b).faultInfo = s.faultInfo := rfl
@[simp] theorem State.setV_strictDecode (s : State) (x : RegIdx) (b : Byte) : (s.setV x b).strictDecode = s.strictDecode := rfl
@[simp] theorem State.setV_log (s : State) (x : RegIdx) (b : Byte) : (s.setV x b).log = s.log := rfl
@[simp] theorem State.setV_rndCount (s : State) (x : RegIdx) (b : Byte) : (s.setV x b).rndCount = s.rndCount := rfl

/-! ### `setFlag` -/

@[simp] theorem State.setFlag_mem (s : State) (b : Byte) : (s.setFlag b).mem = s.mem := rfl
@[simp] theorem State.setFlag_v (s : State) (b : Byte) : (s.setFlag b).v = s.v.set 15 b (by decide) := rfl
@[simp] theorem State.setFlag_i (s : State) (b : Byte) : (s.setFlag b).i = s.i := rfl
@[simp] theorem State.setFlag_pc (s : State) (b : Byte) : (s.setFlag b).pc = s.pc := rfl
@[simp] theorem State.setFlag_stack (s : State) (b : Byte) : (s.setFlag b).stack = s.stack := rfl
@[simp] theorem State.setFlag_sp (s : State) (b : Byte) : (s.setFlag b).sp = s.sp := rfl
@[simp] theorem State.setFlag_dt (s : State) (b : Byte) : (s.setFlag b).dt = s.dt := rfl
@[simp] theorem State.setFlag_st (s : State) (b : Byte) : (s.setFlag b).st = s.st := rfl
@[simp] theorem State.setFlag_keys (s : State) (b : Byte) : (s.setFlag b).keys = s.keys := rfl
@[simp] theorem State.setFlag_fb (s : State) (b : Byte) : (s.setFlag b).fb = s.fb := rfl
@[simp] theorem State.setFlag_drawPending (s : State) (b : Byte) : (s.setFlag b).drawPending = s.drawPending := rfl
@[simp] theorem State.setFlag_mode (s : State) (b : Byte) : (s.setFlag b).mode = s.mode := rfl
@[simp] theorem State.setFlag_status (s : State) (b : Byte) : (s.setFlag b).status = s.status := rfl
@[simp] theorem State.setFlag_faultCause (s : State) (b : Byte) : (s.setFlag b).faultCause = s.faultCause := rfl
@[simp] theorem State.setFlag_faultPc (s : State) (b : Byte) : (s.setFlag b).faultPc = s.faultPc := rfl
@[simp] theorem State.setFlag_faultInfo (s : State) (b : Byte) : (s.setFlag b).faultInfo = s.faultInfo := rfl
@[simp] theorem State.setFlag_strictDecode (s : State) (b : Byte) : (s.setFlag b).strictDecode = s.strictDecode := rfl
@[simp] theorem State.setFlag_log (s : State) (b : Byte) : (s.setFlag b).log = s.log := rfl
@[simp] theorem State.setFlag_rndCount (s : State) (b : Byte) : (s.setFlag b).rndCount = s.rndCount := rfl

/-! ### `setPc` -/

@[simp] theorem State.setPc_mem (s : State) (t : Word) : (s.setPc t).mem = s.mem := rfl
@[simp] theorem State.setPc_v (s : State) (t : Word) : (s.setPc t).v = s.v := rfl
@[simp] theorem State.setPc_i (s : State) (t : Word) : (s.setPc t).i = s.i := rfl
@[simp] theorem State.setPc_pc (s : State) (t : Word) : (s.setPc t).pc = t := rfl
@[simp] theorem State.setPc_stack (s : State) (t : Word) : (s.setPc t).stack = s.stack := rfl
@[simp] theorem State.setPc_sp (s : State) (t : Word) : (s.setPc t).sp = s.sp := rfl
@[simp] theorem State.setPc_dt (s : State) (t : Word) : (s.setPc t).dt = s.dt := rfl
@[simp] theorem State.setPc_st (s : State) (t : Word) : (s.setPc t).st = s.st := rfl
@[simp] theorem State.setPc_keys (s : State) (t : Word) : (s.setPc t).keys = s.keys := rfl
@[simp] theorem State.setPc_fb (s : State) (t : Word) : (s.setPc t).fb = s.fb := rfl
@[simp] theorem State.setPc_drawPending (s : State) (t : Word) : (s.setPc t).drawPending = s.drawPending := rfl
@[simp] theorem State.setPc_mode (s : State) (t : Word) : (s.setPc t).mode = s.mode := rfl
@[simp] theorem State.setPc_status (s : State) (t : Word) : (s.setPc t).status = s.status := rfl
@[simp] theorem State.setPc_faultCause (s : State) (t : Word) : (s.setPc t).faultCause = s.faultCause := rfl
@[simp] theorem State.setPc_faultPc (s : State) (t : Word) : (s.setPc t).faultPc = s.faultPc := rfl
@[simp] theorem State.setPc_faultInfo (s : State) (t : Word) : (s.setPc t).faultInfo = s.faultInfo := rfl
@[simp] theorem State.setPc_strictDecode (s : State) (t : Word) : (s.setPc t).strictDecode = s.strictDecode := rfl
@[simp] theorem State.setPc_log (s : State) (t : Word) : (s.setPc t).log = s.log := rfl
@[simp] theorem State.setPc_rndCount (s : State) (t : Word) : (s.setPc t).rndCount = s.rndCount := rfl

/-! ### `setI` -/

@[simp] theorem State.setI_mem (s : State) (a : Word) : (s.setI a).mem = s.mem := rfl
@[simp] theorem State.setI_v (s : State) (a : Word) : (s.setI a).v = s.v := rfl
@[simp] theorem State.setI_i (s : State) (a : Word) : (s.setI a).i = a := rfl
@[simp] theorem State.setI_pc (s : State) (a : Word) : (s.setI a).pc = s.pc := rfl
@[simp] theorem State.setI_stack (s : State) (a : Word) : (s.setI a).stack = s.stack := rfl
@[simp] theorem State.setI_sp (s : State) (a : Word) : (s.setI a).sp = s.sp := rfl
@[simp] theorem State.setI_dt (s : State) (a : Word) : (s.setI a).dt = s.dt := rfl
@[simp] theorem State.setI_st (s : State) (a : Word) : (s.setI a).st = s.st := rfl
@[simp] theorem State.setI_keys (s : State) (a : Word) : (s.setI a).keys = s.keys := rfl
@[simp] theorem State.setI_fb (s : State) (a : Word) : (s.setI a).fb = s.fb := rfl
@[simp] theorem State.setI_drawPending (s : State) (a : Word) : (s.setI a).drawPending = s.drawPending := rfl
@[simp] theorem State.setI_mode (s : State) (a : Word) : (s.setI a).mode = s.mode := rfl
@[simp] theorem State.setI_status (s : State) (a : Word) : (s.setI a).status = s.status := rfl
@[simp] theorem State.setI_faultCause (s : State) (a : Word) : (s.setI a).faultCause = s.faultCause := rfl
@[simp] theorem State.setI_faultPc (s : State) (a : Word) : (s.setI a).faultPc = s.faultPc := rfl
@[simp] theorem State.setI_faultInfo (s : State) (a : Word) : (s.setI a).faultInfo = s.faultInfo := rfl
@[simp] theorem State.setI_strictDecode (s : State) (a : Word) : (s.setI a).strictDecode = s.strictDecode := rfl
@[simp] theorem State.setI_log (s : State) (a : Word) : (s.setI a).log = s.log := rfl
@[simp] theorem State.setI_rndCount (s : State) (a : Word) : (s.setI a).rndCount = s.rndCount := rfl

/-! ### `advance` -/

@[simp] theorem State.advance_mem (s : State) : (s.advance).mem = s.mem := rfl
@[simp] theorem State.advance_v (s : State) : (s.advance).v = s.v := rfl
@[simp] theorem State.advance_i (s : State) : (s.advance).i = s.i := rfl
@[simp] theorem State.advance_pc (s : State) : (s.advance).pc = s.pc + 2#16 := rfl
@[simp] theorem State.advance_stack (s : State) : (s.advance).stack = s.stack := rfl
@[simp] theorem State.advance_sp (s : State) : (s.advance).sp = s.sp := rfl
@[simp] theorem State.advance_dt (s : State) : (s.advance).dt = s.dt := rfl
@[simp] theorem State.advance_st (s : State) : (s.advance).st = s.st := rfl
@[simp] theorem State.advance_keys (s : State) : (s.advance).keys = s.keys := rfl
@[simp] theorem State.advance_fb (s : State) : (s.advance).fb = s.fb := rfl
@[simp] theorem State.advance_drawPending (s : State) : (s.advance).drawPending = s.drawPending := rfl
@[simp] theorem State.advance_mode (s : State) : (s.advance).mode = s.mode := rfl
@[simp] theorem State.advance_status (s : State) : (s.advance).status = s.status := rfl
@[simp] theorem State.advance_faultCause (s : State) : (s.advance).faultCause = s.faultCause := rfl
@[simp] theorem State.advance_faultPc (s : State) : (s.advance).faultPc = s.faultPc := rfl
@[simp] theorem State.advance_faultInfo (s : State) : (s.advance).faultInfo = s.faultInfo := rfl
@[simp] theorem State.advance_strictDecode (s : State) : (s.advance).strictDecode = s.strictDecode := rfl
@[simp] theorem State.advance_log (s : State) : (s.advance).log = s.log := rfl
@[simp] theorem State.advance_rndCount (s : State) : (s.advance).rndCount = s.rndCount := rfl

/-! ### `skipIf` -/

@[simp] theorem State.skipIf_mem (s : State) (t : Bool) : (s.skipIf t).mem = s.mem := by cases t <;> rfl
@[simp] theorem State.skipIf_v (s : State) (t : Bool) : (s.skipIf t).v = s.v := by cases t <;> rfl
@[simp] theorem State.skipIf_i (s : State) (t : Bool) : (s.skipIf t).i = s.i := by cases t <;> rfl
@[simp] theorem State.skipIf_stack (s : State) (t : Bool) : (s.skipIf t).stack = s.stack := by cases t <;> rfl
@[simp] theorem State.skipIf_sp (s : State) (t : Bool) : (s.skipIf t).sp = s.sp := by cases t <;> rfl
@[simp] theorem State.skipIf_dt (s : State) (t : Bool) : (s.skipIf t).dt = s.dt := by cases t <;> rfl
@[simp] theorem State.skipIf_st (s : State) (t : Bool) : (s.skipIf t).st = s.st := by cases t <;> rfl
@[simp] theorem State.skipIf_keys (s : State) (t : Bool) : (s.skipIf t).keys = s.keys := by cases t <;> rfl
@[simp] theorem State.skipIf_fb (s : State) (t : Bool) : (s.skipIf t).fb = s.fb := by cases t <;> rfl
@[simp] theorem State.skipIf_drawPending (s : State) (t : Bool) : (s.skipIf t).drawPending = s.drawPending := by cases t <;> rfl
@[simp] theorem State.skipIf_mode (s : State) (t : Bool) : (s.skipIf t).mode = s.mode := by cases t <;> rfl
@[simp] theorem State.skipIf_status (s : State) (t : Bool) : (s.skipIf t).status = s.status := by cases t <;> rfl
@[simp] theorem State.skipIf_faultCause (s : State) (t : Bool) : (s.skipIf t).faultCause = s.faultCause := by cases t <;> rfl
@[simp] theorem State.skipIf_faultPc (s : State) (t : Bool) : (s.skipIf t).faultPc = s.faultPc := by cases t <;> rfl
@[simp] theorem State.skipIf_faultInfo (s : State) (t : Bool) : (s.skipIf t).faultInfo = s.faultInfo := by cases t <;> rfl
@[simp] theorem State.skipIf_strictDecode (s : State) (t : Bool) : (s.skipIf t).strictDecode = s.strictDecode := by cases t <;> rfl
@[simp] theorem State.skipIf_log (s : State) (t : Bool) : (s.skipIf t).log = s.log := by cases t <;> rfl
@[simp] theorem State.skipIf_rndCount (s : State) (t : Bool) : (s.skipIf t).rndCount = s.rndCount := by cases t <;> rfl
@[simp] theorem State.skipIf_pc (s : State) (t : Bool) : (s.skipIf t).pc = if t then s.pc + 4#16 else s.pc + 2#16 := by cases t <;> rfl

/-! ### `raise`: fault entry (R209, R210) -/

@[simp] theorem raise_mem (c : FaultCause) (info : Word) (s : State) : (raise c info s).mem = s.mem := rfl
@[simp] theorem raise_v (c : FaultCause) (info : Word) (s : State) : (raise c info s).v = s.v := rfl
@[simp] theorem raise_i (c : FaultCause) (info : Word) (s : State) : (raise c info s).i = s.i := rfl
@[simp] theorem raise_pc (c : FaultCause) (info : Word) (s : State) : (raise c info s).pc = s.pc := rfl
@[simp] theorem raise_stack (c : FaultCause) (info : Word) (s : State) : (raise c info s).stack = s.stack := rfl
@[simp] theorem raise_sp (c : FaultCause) (info : Word) (s : State) : (raise c info s).sp = s.sp := rfl
@[simp] theorem raise_dt (c : FaultCause) (info : Word) (s : State) : (raise c info s).dt = s.dt := rfl
@[simp] theorem raise_st (c : FaultCause) (info : Word) (s : State) : (raise c info s).st = s.st := rfl
@[simp] theorem raise_keys (c : FaultCause) (info : Word) (s : State) : (raise c info s).keys = s.keys := rfl
@[simp] theorem raise_fb (c : FaultCause) (info : Word) (s : State) : (raise c info s).fb = s.fb := rfl
@[simp] theorem raise_drawPending (c : FaultCause) (info : Word) (s : State) : (raise c info s).drawPending = s.drawPending := rfl
@[simp] theorem raise_mode (c : FaultCause) (info : Word) (s : State) : (raise c info s).mode = s.mode := rfl
@[simp] theorem raise_status (c : FaultCause) (info : Word) (s : State) : (raise c info s).status = .faulted := rfl
@[simp] theorem raise_faultCause (c : FaultCause) (info : Word) (s : State) : (raise c info s).faultCause = c := rfl
@[simp] theorem raise_faultPc (c : FaultCause) (info : Word) (s : State) : (raise c info s).faultPc = s.pc := rfl
@[simp] theorem raise_faultInfo (c : FaultCause) (info : Word) (s : State) : (raise c info s).faultInfo = info := rfl
@[simp] theorem raise_strictDecode (c : FaultCause) (info : Word) (s : State) : (raise c info s).strictDecode = s.strictDecode := rfl
@[simp] theorem raise_log (c : FaultCause) (info : Word) (s : State) : (raise c info s).log = s.log := rfl
@[simp] theorem raise_rndCount (c : FaultCause) (info : Word) (s : State) : (raise c info s).rndCount = s.rndCount := rfl

/-! ### `emitDecodeError` -/

@[simp] theorem State.emitDecodeError_mem (s : State) (a w : Word) : (s.emitDecodeError a w).mem = s.mem := rfl
@[simp] theorem State.emitDecodeError_v (s : State) (a w : Word) : (s.emitDecodeError a w).v = s.v := rfl
@[simp] theorem State.emitDecodeError_i (s : State) (a w : Word) : (s.emitDecodeError a w).i = s.i := rfl
@[simp] theorem State.emitDecodeError_pc (s : State) (a w : Word) : (s.emitDecodeError a w).pc = s.pc := rfl
@[simp] theorem State.emitDecodeError_stack (s : State) (a w : Word) : (s.emitDecodeError a w).stack = s.stack := rfl
@[simp] theorem State.emitDecodeError_sp (s : State) (a w : Word) : (s.emitDecodeError a w).sp = s.sp := rfl
@[simp] theorem State.emitDecodeError_dt (s : State) (a w : Word) : (s.emitDecodeError a w).dt = s.dt := rfl
@[simp] theorem State.emitDecodeError_st (s : State) (a w : Word) : (s.emitDecodeError a w).st = s.st := rfl
@[simp] theorem State.emitDecodeError_keys (s : State) (a w : Word) : (s.emitDecodeError a w).keys = s.keys := rfl
@[simp] theorem State.emitDecodeError_fb (s : State) (a w : Word) : (s.emitDecodeError a w).fb = s.fb := rfl
@[simp] theorem State.emitDecodeError_drawPending (s : State) (a w : Word) : (s.emitDecodeError a w).drawPending = s.drawPending := rfl
@[simp] theorem State.emitDecodeError_mode (s : State) (a w : Word) : (s.emitDecodeError a w).mode = s.mode := rfl
@[simp] theorem State.emitDecodeError_status (s : State) (a w : Word) : (s.emitDecodeError a w).status = s.status := rfl
@[simp] theorem State.emitDecodeError_faultCause (s : State) (a w : Word) : (s.emitDecodeError a w).faultCause = s.faultCause := rfl
@[simp] theorem State.emitDecodeError_faultPc (s : State) (a w : Word) : (s.emitDecodeError a w).faultPc = s.faultPc := rfl
@[simp] theorem State.emitDecodeError_faultInfo (s : State) (a w : Word) : (s.emitDecodeError a w).faultInfo = s.faultInfo := rfl
@[simp] theorem State.emitDecodeError_strictDecode (s : State) (a w : Word) : (s.emitDecodeError a w).strictDecode = s.strictDecode := rfl
@[simp] theorem State.emitDecodeError_log (s : State) (a w : Word) : (s.emitDecodeError a w).log = s.log ++ [⟨a, w⟩] := rfl
@[simp] theorem State.emitDecodeError_rndCount (s : State) (a w : Word) : (s.emitDecodeError a w).rndCount = s.rndCount := rfl

/-! ### Register reads after the updates -/

@[simp] theorem State.getV_setV_same (s : State) (x : RegIdx) (b : Byte) : (s.setV x b).getV x = b := by
  simp [State.getV]

theorem State.getV_setV_other (s : State) {x k : RegIdx} (b : Byte) (h : k ≠ x) : (s.setV x b).getV k = s.getV k := by
  have hk : x.toNat ≠ k.toNat := fun e => h (BitVec.eq_of_toNat_eq e.symm)
  simp [State.getV, hk]

theorem State.getV_setV (s : State) (x k : RegIdx) (b : Byte) :
    (s.setV x b).getV k = if k = x then b else s.getV k := by
  split
  · next h => subst h; simp
  · next h => exact s.getV_setV_other b h

@[simp] theorem State.getV_setFlag_same (s : State) (b : Byte) : (s.setFlag b).getV Config.flagReg = b :=
  s.getV_setV_same _ _

theorem State.getV_setFlag (s : State) (k : RegIdx) (b : Byte) :
    (s.setFlag b).getV k = if k = Config.flagReg then b else s.getV k := s.getV_setV _ k b

@[simp] theorem State.getV_setPc (s : State) (t : Word) (k : RegIdx) : (s.setPc t).getV k = s.getV k := rfl
@[simp] theorem State.getV_setI (s : State) (a : Word) (k : RegIdx) : (s.setI a).getV k = s.getV k := rfl
@[simp] theorem State.getV_advance (s : State) (k : RegIdx) : s.advance.getV k = s.getV k := rfl
@[simp] theorem State.getV_skipIf (s : State) (t : Bool) (k : RegIdx) : (s.skipIf t).getV k = s.getV k := by
  cases t <;> rfl
@[simp] theorem raise_getV (c : FaultCause) (info : Word) (s : State) (k : RegIdx) :
    (raise c info s).getV k = s.getV k := rfl

/-- Two states agree on every register exactly when their register files are equal. -/
theorem State.v_ext {s t : State} (h : ∀ k : RegIdx, s.getV k = t.getV k) : s.v = t.v := by
  apply Vector.ext
  intro j hj
  have := h (BitVec.ofNat 4 j)
  have e : j % 16 = j := Nat.mod_eq_of_lt hj
  simpa [State.getV, e] using this

end Machine

end Sys2Proof
end

