-- ==== Sys2Proof/Laws/Step.lean ====
section
/-! SUPPORT. What one `Step` can do (spec/30_encoding.md R63), said once for any meaning of the instructions. -/

namespace Sys2Proof

namespace Machine

/-- The four cases of a `Step`: halted, no word to fetch, an undefined word, an instruction. -/
theorem stepWith_cases (run : Instr → State → Host.Outcome State Fault Refusal) (s : State) :
    (s.status = .faulted ∧ stepWith run s = .next s) ∨
    (s.status = .running ∧ fetchWord s = none ∧ stepWith run s = .next (raise .fetchOutOfRange s.pc s)) ∨
    (∃ op r, s.status = .running ∧ fetchWord s = some op ∧ decodeWord op = .error r ∧
      stepWith run s = .next (undefinedWord op s)) ∨
    (∃ op i, s.status = .running ∧ fetchWord s = some op ∧ decodeWord op = .ok i ∧ stepWith run s = run i s) := by
  unfold stepWith
  cases hs : s.status with
  | faulted => exact .inl ⟨rfl, rfl⟩
  | running =>
    refine .inr ?_
    cases hf : fetchWord s with
    | none => exact .inl ⟨rfl, rfl, rfl⟩
    | some op =>
      refine .inr ?_
      cases hd : decodeWord op with
      | error r => exact .inl ⟨op, r, rfl, rfl, hd, by simp [hd]⟩
      | ok i => exact .inr ⟨op, i, rfl, rfl, hd, by simp [hd]⟩

/-- A FAULTED core's `Step` returns it unchanged (R212). -/
theorem stepWith_faulted (run : Instr → State → Host.Outcome State Fault Refusal) {s : State}
    (hs : s.status = .faulted) : stepWith run s = .next s := by
  simp [stepWith, hs]

/-- A RUNNING core with no word to fetch raises FetchOutOfRange (R43, R202). -/
theorem stepWith_noWord (run : Instr → State → Host.Outcome State Fault Refusal) {s : State}
    (hs : s.status = .running) (hf : fetchWord s = none) :
    stepWith run s = .next (raise .fetchOutOfRange s.pc s) := by
  simp [stepWith, hs, hf]

/-- A RUNNING core on an undefined word (R67, R68). -/
theorem stepWith_undefined (run : Instr → State → Host.Outcome State Fault Refusal) {s : State} {op : Word}
    {r : DecodeReject} (hs : s.status = .running) (hf : fetchWord s = some op) (hd : decodeWord op = .error r) :
    stepWith run s = .next (undefinedWord op s) := by
  simp [stepWith, hs, hf, hd]

/-- A RUNNING core on an instruction runs its meaning (R63). -/
theorem stepWith_decoded (run : Instr → State → Host.Outcome State Fault Refusal) {s : State} {op : Word} {i : Instr}
    (hs : s.status = .running) (hf : fetchWord s = some op) (hd : decodeWord op = .ok i) :
    stepWith run s = run i s := by
  simp [stepWith, hs, hf, hd]

theorem fetchWord_of_le {s : State} (h : s.pc.toNat ≤ 4094) :
    fetchWord s = some (wordOfBytes (s.mem.read s.pc.toNat) (s.mem.read (s.pc.toNat + 1))) := by
  have : s.pc.toNat < Config.memSize - 1 := by simp [Config.memSize]; omega
  simp [fetchWord, this]

theorem fetchWord_of_ge {s : State} (h : 4095 ≤ s.pc.toNat) : fetchWord s = none := by
  have : ¬ s.pc.toNat < Config.memSize - 1 := by simp [Config.memSize]; omega
  simp [fetchWord, this]

theorem fetchWord_eq_some_le {s : State} {w : Word} (h : fetchWord s = some w) : s.pc.toNat ≤ 4094 := by
  by_contra hc
  rw [fetchWord_of_ge (by omega)] at h
  cases h

/-- What an undefined word does, by STRICT_DECODE (R67, R68). -/
theorem undefinedWord_cases (op : Word) (s : State) :
    (s.strictDecode = false ∧ undefinedWord op s = s.advance.emitDecodeError s.pc op) ∨
    (s.strictDecode = true ∧ undefinedWord op s = raise .illegalInstruction op s) := by
  unfold undefinedWord
  cases h : s.strictDecode
  · exact .inl ⟨rfl, by simp⟩
  · exact .inr ⟨rfl, by simp⟩

/-- Placing a word keeps the canonical form of memory. -/
theorem State.placeWord_mem_wf {s : State} (h : s.mem.wf = true) (op : Word) : (s.placeWord op).mem.wf = true :=
  Memory.writeList_wf h _ _

/-- A placed word is the one fetched next (R43). -/
theorem fetchWord_placeWord {s : State} (h : s.mem.wf = true) (hp : s.pc.toNat ≤ 4094) (op : Word) :
    fetchWord (s.placeWord op) = some (wordOfBytes (highByte op) (lowByte op)) := by
  have hb : s.pc.toNat + [highByte op, lowByte op].length ≤ Config.memSize := by simp [Config.memSize]; omega
  have h0 := Memory.read_writeList_at h hb (k := 0) (by simp)
  have h1 := Memory.read_writeList_at h hb (k := 1) (by simp)
  rw [fetchWord_of_le (s := s.placeWord op) hp]
  simp only [State.placeWord]
  simp only [Nat.add_zero, List.getElem_cons_zero, List.getElem_cons_succ] at h0 h1
  rw [h0, h1]

end Machine

end Sys2Proof
end

