-- ==== Sys2Proof/Laws/Operations.lean ====
section
/-! SUPPORT. What the host's operations do (spec/10_state.md R31), said once. -/

namespace Sys2Proof

namespace Machine

/-- A schedule whose first operation answers a next state goes on from it. -/
theorem runOperations_cons {op : Operation} {ops : List Operation} {s t : State} (h : op.apply s = .next t) :
    runOperations (op :: ops) s = runOperations ops t := by
  simp only [runOperations, h]

/-- Everything `ifRunning` can do: nothing on a FAULTED core, the effect on a RUNNING one (R212). -/
theorem State.ifRunning_cases (s e : State) :
    (s.status = .faulted ∧ s.ifRunning e = s) ∨ (s.status = .running ∧ s.ifRunning e = e) := by
  unfold State.ifRunning
  cases s.status
  · exact .inr ⟨rfl, rfl⟩
  · exact .inl ⟨rfl, rfl⟩

/-- `TimerTick` writes the two timers alone (R216). -/
theorem State.timerTick_frame (s : State) : s.timerTick = { s with dt := s.timerTick.dt, st := s.timerTick.st } := by
  unfold State.timerTick
  rcases s.ifRunning_cases { s with dt := countDown s.dt, st := countDown s.st } with ⟨_, e⟩ | ⟨_, e⟩ <;> rw [e]

/-- `SetKeys` writes the keys alone (R217). -/
theorem State.setKeys_frame (s : State) (k : BitVec 16) : s.setKeys k = { s with keys := (s.setKeys k).keys } := by
  unfold State.setKeys
  rcases s.ifRunning_cases { s with keys := k } with ⟨_, e⟩ | ⟨_, e⟩ <;> rw [e]

/-- A picture depends on the framebuffer alone (R218). -/
theorem State.readFramebuffer_congr {s t : State} (h : s.fb = t.fb) : s.readFramebuffer = t.readFramebuffer := by
  simp only [State.readFramebuffer, h]

/-- The end of a tick: one `TimerTick`, the flag consumed, the picture presented exactly when it was set (R248). -/
theorem endTick_eq (s : State) :
    endTick s = (if s.drawPending then some s.readFramebuffer else none, { s.timerTick with drawPending := false }) := by
  have hp : s.timerTick.drawPending = s.drawPending := by rw [s.timerTick_frame]
  have hf : s.timerTick.readFramebuffer = s.readFramebuffer := State.readFramebuffer_congr (by rw [s.timerTick_frame])
  show (if s.timerTick.drawPending then some s.timerTick.readFramebuffer else none, _) = _
  rw [hp, hf]
  rfl

end Machine

end Sys2Proof
end

