-- ==== Sys2Proof/Laws/Ops.lean ====
section
/-! SUPPORT. One lemma per shared operation that says what it can do, for proofs to cite instead of unfolding it. -/

namespace Sys2Proof

namespace Machine

/-! ### Ranges and stores -/

theorem inRange_eq_true {a len : Nat} : inRange a len = true ↔ len = 0 ∨ a + len ≤ 4096 := by
  simp only [inRange, Bool.or_eq_true, decide_eq_true_eq]; rfl

theorem inRange_eq_false {a len : Nat} : inRange a len = false ↔ len ≠ 0 ∧ 4096 < a + len := by
  simp only [inRange, Bool.or_eq_false_iff, decide_eq_false_iff_not, Nat.not_le]; rfl

/-- Everything `withRange` can do: the effect when every byte exists, the precise fault when one does not. -/
theorem withRange_cases (len : Nat) (s e : State) :
    (inRange s.i.toNat len = true ∧ withRange len s e = .next e) ∨
    (inRange s.i.toNat len = false ∧ withRange len s e = .next (raise .memOutOfRange s.i s)) := by
  unfold withRange
  cases h : inRange s.i.toNat len <;> simp

theorem State.length_firstRegs (s : State) {n : Nat} (h : n ≤ 16) : (s.firstRegs n).length = n := by
  simp [State.firstRegs]; omega

theorem State.getElem_firstRegs (s : State) {n k : Nat} (h : k < (s.firstRegs n).length) (hk : k < 16) :
    (s.firstRegs n)[k] = s.v[k] := by
  simp [State.firstRegs]

/-- Everything `loadRegs` does: the first `n` registers come from memory, the others stay (R145). -/
theorem getElem_loadRegs (m : Memory) (base n : Nat) (v : Vector Byte 16) (k : Nat) (hk : k < 16) :
    (loadRegs m base n v)[k] = if k < n then m.read (base + k) else v[k] := by
  induction n with
  | zero => simp [loadRegs]
  | succ n ih =>
    simp only [loadRegs, Vector.getElem_setIfInBounds, ih]
    by_cases h : n = k
    · subst h; simp
    · rw [if_neg h]
      by_cases h2 : k < n
      · rw [if_pos h2, if_pos (by omega)]
      · rw [if_neg h2, if_neg (by omega)]

/-! ### Call stack -/

theorem State.push_of_lt (s : State) (value : Word) (h : s.sp.val < 16) :
    s.push value = some { s with stack := s.stack.set s.sp.val value h, sp := ⟨s.sp.val + 1, by omega⟩ } := by
  simp [State.push, h]

theorem State.push_full (s : State) (value : Word) (h : ¬ s.sp.val < 16) : s.push value = none := by
  simp [State.push, h]

theorem State.pop_of_pos (s : State) (h : 0 < s.sp.val) :
    s.pop = some (s.stack[s.sp.val - 1]'(by omega), { s with sp := ⟨s.sp.val - 1, by omega⟩ }) := by
  simp [State.pop, h]

theorem State.pop_empty (s : State) (h : ¬ 0 < s.sp.val) : s.pop = none := by
  simp [State.pop, h]

/-! ### Framebuffer -/

@[simp] theorem Framebuffer.pixel_clear (r c : Nat) : Framebuffer.clear.pixel r c = false := by
  simp [Framebuffer.pixel, Framebuffer.clear]

/-- A toggle inverts its pixel and no other (R163). -/
theorem Framebuffer.pixel_toggle (fb : Framebuffer) {r c : Nat} (hr : r < 32) (hc : c < 64) (r' c' : Nat) :
    (fb.toggle r c).pixel r' c' = (fb.pixel r' c' ^^ (decide (r' = r) && decide (c' = c))) := by
  unfold Framebuffer.toggle Framebuffer.pixel
  simp only [hr, dite_true]
  by_cases h : r' < 32
  · simp only [h, dite_true, Vector.getElem_set]
    by_cases e : r = r'
    · subst e
      by_cases e2 : c = c'
      · subst e2; simp [hc]
      · have e3 : ¬ c' = c := fun q => e2 q.symm
        simp [BitVec.getLsbD_xor, BitVec.getLsbD_twoPow, e2, e3]
    · have e3 : ¬ r' = r := fun q => e q.symm
      simp [e, e3]
  · have : ¬ r' = r := by omega
    simp [h, this]

/-- Every target of a sprite bit lies on the screen, whatever the mode (R162). -/
theorem spriteTarget_bounds {wrap : Bool} {px py : Nat} {t : Nat × Nat} (h : spriteTarget wrap px py = some t) :
    t.1 < 32 ∧ t.2 < 64 := by
  unfold spriteTarget Config.fbHeight Config.fbWidth at h
  split at h
  · cases h; exact ⟨Nat.mod_lt _ (by decide), Nat.mod_lt _ (by decide)⟩
  · split at h
    · cases h
    · cases h; constructor <;> simp <;> omega

/-- Everything the drawing loop does over distinct targets on the screen: the targets are inverted and nothing else, and the
flag says whether one of them was on (R161, R163). -/
theorem foldl_drawPixel (ts : List (Nat × Nat)) (hb : ∀ t ∈ ts, t.1 < 32 ∧ t.2 < 64) (hd : ts.Nodup)
    (acc : Framebuffer × Bool) :
    (∀ r c, (ts.foldl drawPixel acc).1.pixel r c = (acc.1.pixel r c ^^ decide ((r, c) ∈ ts))) ∧
    ((ts.foldl drawPixel acc).2 = true ↔ acc.2 = true ∨ ∃ t ∈ ts, acc.1.pixel t.1 t.2 = true) := by
  induction ts generalizing acc with
  | nil => simp
  | cons t ts ih =>
    obtain ⟨hnot, hd'⟩ := List.nodup_cons.mp hd
    obtain ⟨hr, hc⟩ := hb t (by simp)
    obtain ⟨ih1, ih2⟩ := ih (fun u hu => hb u (by simp [hu])) hd' (drawPixel acc t)
    have hpix : ∀ r c, (drawPixel acc t).1.pixel r c = (acc.1.pixel r c ^^ (decide (r = t.1) && decide (c = t.2))) :=
      Framebuffer.pixel_toggle acc.1 hr hc
    refine ⟨fun r c => ?_, ?_⟩
    · rw [List.foldl_cons, ih1, hpix]
      by_cases e : (r, c) = t
      · subst e; simp [hnot]
      · have e' : ¬ (r = t.1 ∧ c = t.2) := fun q => e (Prod.ext q.1 q.2)
        have : (decide (r = t.1) && decide (c = t.2)) = false := by simpa using e'
        simp [this, e]
    · rw [List.foldl_cons, ih2]
      have hflag : (drawPixel acc t).2 = (acc.2 || acc.1.pixel t.1 t.2) := rfl
      have hsame : ∀ u ∈ ts, (drawPixel acc t).1.pixel u.1 u.2 = acc.1.pixel u.1 u.2 := by
        intro u hu
        have : ¬ (u.1 = t.1 ∧ u.2 = t.2) := fun q => hnot ((Prod.ext q.1 q.2 : u = t) ▸ hu)
        rw [hpix, show (decide (u.1 = t.1) && decide (u.2 = t.2)) = false by simpa using this, Bool.xor_false]
      rw [hflag]
      constructor
      · rintro (h | ⟨u, hu, hp⟩)
        · rcases Bool.or_eq_true_iff.mp h with h | h
          · exact .inl h
          · exact .inr ⟨t, by simp, h⟩
        · exact .inr ⟨u, by simp [hu], by rwa [hsame u hu] at hp⟩
      · rintro (h | ⟨u, hu, hp⟩)
        · exact .inl (by simp [h])
        · rcases List.mem_cons.mp hu with e | hu
          · exact .inl (by subst e; simp [hp])
          · exact .inr ⟨u, hu, by rwa [hsame u hu]⟩

/-- The pixels a sprite's set bits land on: exactly the targets of its set bits (R161, R162). -/
theorem mem_spriteTargets {m : Memory} {a n x0 y0 : Nat} {t : Nat × Nat} :
    t ∈ spriteTargets m a n x0 y0 ↔ ∃ row < n, ∃ col < 8, (m.read (a + row)).getLsbD (7 - col) = true ∧
      spriteTarget (originOutside x0 y0) (x0 + col) (y0 + row) = some t := by
  simp only [spriteTargets, rowTargets, List.mem_flatMap, List.mem_filterMap, List.mem_range]
  constructor
  · rintro ⟨r, hr, c, hc, h⟩
    split at h
    · next hb => exact ⟨r, hr, c, hc, hb, h⟩
    · cases h
  · rintro ⟨r, hr, c, hc, hb, h⟩
    exact ⟨r, hr, c, hc, by rw [if_pos hb]; exact h⟩

/-- Two bits of one sprite never land on the same pixel, in either mode: 8 columns and at most 16 rows do not wrap round. -/
theorem spriteTarget_inj {wrap : Bool} {x0 y0 c1 c2 r1 r2 : Nat} {t : Nat × Nat} (hc1 : c1 < 8) (hc2 : c2 < 8)
    (hr1 : r1 < 16) (hr2 : r2 < 16) (h1 : spriteTarget wrap (x0 + c1) (y0 + r1) = some t)
    (h2 : spriteTarget wrap (x0 + c2) (y0 + r2) = some t) : c1 = c2 ∧ r1 = r2 := by
  unfold spriteTarget Config.fbHeight Config.fbWidth at *
  cases wrap
  · simp only [Bool.false_eq_true, if_false] at h1 h2
    split at h1
    · cases h1
    · split at h2
      · cases h2
      · simp only [Option.some.injEq] at h1 h2
        subst h1
        simp only [Prod.mk.injEq] at h2; omega
  · simp only [if_true, Option.some.injEq] at h1 h2
    subst h1
    simp only [Prod.mk.injEq] at h2; omega

/-- The targets of a sprite are distinct, as `foldl_drawPixel` asks. -/
theorem spriteTargets_nodup (m : Memory) (a x0 y0 : Nat) {n : Nat} (hn : n ≤ 16) :
    (spriteTargets m a n x0 y0).Nodup := by
  unfold spriteTargets
  rw [List.nodup_flatMap]
  constructor
  · intro row hrow
    unfold rowTargets List.Nodup
    rw [List.pairwise_filterMap]
    refine List.Pairwise.imp_of_mem ?_ List.pairwise_lt_range
    intro c1 c2 h1 h2 hlt t ht t' ht' e
    subst e
    simp only [List.mem_range] at h1 h2 hrow
    split at ht <;> [skip; cases ht]
    split at ht' <;> [skip; cases ht']
    have := spriteTarget_inj h1 h2 (by omega) (by omega) ht ht'
    omega
  · refine List.Pairwise.imp_of_mem ?_ List.pairwise_lt_range
    intro r1 r2 h1 h2 hlt
    simp only [List.mem_range] at h1 h2
    intro t ht ht'
    obtain ⟨c1, hc1, e1⟩ := List.mem_filterMap.mp ht
    obtain ⟨c2, hc2, e2⟩ := List.mem_filterMap.mp ht'
    simp only [List.mem_range] at hc1 hc2
    split at e1 <;> [skip; cases e1]
    split at e2 <;> [skip; cases e2]
    have := spriteTarget_inj hc1 hc2 (by omega) (by omega) e1 e2
    omega

/-! ### Keys and timers -/

/-- The key the wait captures is held, below 16, and the least such; there is none exactly when no key is held (R174). -/
theorem State.lowestKey_eq_some {s : State} {k : Nat} (h : s.lowestKey = some k) :
    k < 16 ∧ s.keyHeld k = true ∧ ∀ j < k, s.keyHeld j = false := by
  unfold State.lowestKey at h
  rw [List.find?_range_eq_some] at h
  obtain ⟨h1, h2, h3⟩ := h
  exact ⟨by simpa using h2, h1, fun j hj => by simpa using h3 j hj⟩

theorem State.lowestKey_eq_none {s : State} : s.lowestKey = none ↔ ∀ k < 16, s.keyHeld k = false := by
  unfold State.lowestKey
  simp [List.find?_eq_none]

theorem countDown_toNat (t : Byte) : (countDown t).toNat = t.toNat - 1 := by
  unfold countDown
  split
  · next h => subst h; rfl
  · next h =>
    have : 1 ≤ t.toNat := by
      rcases Nat.eq_zero_or_pos t.toNat with e | e
      · exact absurd (BitVec.eq_of_toNat_eq e) h
      · exact e
    rw [BitVec.toNat_sub_of_le (by simpa [BitVec.le_def] using this)]
    rfl

/-- Everything `skipOnKey` can do: a skip on the flag of a key 0 to 15, the precise fault above (R171, R172, R177). -/
theorem skipOnKey_cases (x : RegIdx) (wanted : Bool) (s : State) :
    ((s.getV x).toNat ≤ 15 ∧ skipOnKey x wanted s = .next (s.skipIf (s.keyHeld (s.getV x).toNat == wanted))) ∨
    (15 < (s.getV x).toNat ∧ skipOnKey x wanted s = .next (raise .keyIndexOutOfRange ((s.getV x).setWidth 16) s)) := by
  unfold skipOnKey
  by_cases h : (s.getV x).toNat ≤ 15
  · exact .inl ⟨h, by simp [h]⟩
  · exact .inr ⟨by omega, by simp [h]⟩

/-! ### The end of a flag-writing instruction -/

/-- Everything `aluWrite` does to the registers: the flag in `v[15]`, else the result in `v[x]` (R13, R132). -/
theorem aluWrite_getV (x : RegIdx) (result flag : Byte) (s : State) (k : RegIdx) :
    (aluWrite x result flag s).getV k = if k = Config.flagReg then flag else if k = x then result else s.getV k := by
  simp only [aluWrite, State.getV_setFlag, State.getV_setV, State.getV_advance]

/-- `aluWrite` changes the register file and `pc`, nothing else. -/
theorem aluWrite_frame (x : RegIdx) (result flag : Byte) (s : State) :
    aluWrite x result flag s = { s with v := (aluWrite x result flag s).v, pc := s.pc + 2#16 } := rfl

end Machine

end Sys2Proof
end

