-- ==== Sys2Proof/Laws/PerInstr.lean ====
section
/-! SUPPORT. Statements made per instruction. EncodingRow: the word the encoder writes selects the instruction's own row of
the opcode map (spec/30_encoding.md R65), and that row is in the map. -/

namespace Sys2Proof.Laws.EncodingRow

/-- The instruction's row is one of R65, and its encoded word selects it. -/
def Statement (i : Instr) : Prop := i.row ∈ opcodeTable ∧ i.row.selects (encode i) = true

/-- Every instruction's row is in the map. -/
theorem row_mem (i : Instr) : i.row ∈ opcodeTable := by cases i <;> simp [Instr.row, opcodeTable]

/-- A row of the map that a word selects. -/
theorem of_masked {i : Instr} (e : encode i &&& i.row.mask = i.row.matchBits) : Statement i :=
  ⟨row_mem i, by simpa [OpcodeRow.selects] using e⟩

theorem cls : Statement (.cls) := of_masked rfl
theorem ret : Statement (.ret) := of_masked rfl
theorem jp (nnn : Imm12) : Statement (.jp nnn) := of_masked (formatA_masked _ _)
theorem call (nnn : Imm12) : Statement (.call nnn) := of_masked (formatA_masked _ _)
theorem seKk (x : RegIdx) (kk : Byte) : Statement (.seKk x kk) := of_masked (formatXK_masked _ _ _)
theorem sneKk (x : RegIdx) (kk : Byte) : Statement (.sneKk x kk) := of_masked (formatXK_masked _ _ _)
theorem seVy (x y : RegIdx) : Statement (.seVy x y) := of_masked (formatXYN_masked_sub _ _ _ _)
theorem ldKk (x : RegIdx) (kk : Byte) : Statement (.ldKk x kk) := of_masked (formatXK_masked _ _ _)
theorem addKk (x : RegIdx) (kk : Byte) : Statement (.addKk x kk) := of_masked (formatXK_masked _ _ _)
theorem ldVy (x y : RegIdx) : Statement (.ldVy x y) := of_masked (formatXYN_masked_sub _ _ _ _)
theorem orVy (x y : RegIdx) : Statement (.orVy x y) := of_masked (formatXYN_masked_sub _ _ _ _)
theorem andVy (x y : RegIdx) : Statement (.andVy x y) := of_masked (formatXYN_masked_sub _ _ _ _)
theorem xorVy (x y : RegIdx) : Statement (.xorVy x y) := of_masked (formatXYN_masked_sub _ _ _ _)
theorem addVy (x y : RegIdx) : Statement (.addVy x y) := of_masked (formatXYN_masked_sub _ _ _ _)
theorem subVy (x y : RegIdx) : Statement (.subVy x y) := of_masked (formatXYN_masked_sub _ _ _ _)
theorem shrVy (x y : RegIdx) : Statement (.shrVy x y) := of_masked (formatXYN_masked_sub _ _ _ _)
theorem subnVy (x y : RegIdx) : Statement (.subnVy x y) := of_masked (formatXYN_masked_sub _ _ _ _)
theorem shlVy (x y : RegIdx) : Statement (.shlVy x y) := of_masked (formatXYN_masked_sub _ _ _ _)
theorem sneVy (x y : RegIdx) : Statement (.sneVy x y) := of_masked (formatXYN_masked_sub _ _ _ _)
theorem ldI (nnn : Imm12) : Statement (.ldI nnn) := of_masked (formatA_masked _ _)
theorem jpV0 (nnn : Imm12) : Statement (.jpV0 nnn) := of_masked (formatA_masked _ _)
theorem rnd (x : RegIdx) (kk : Byte) : Statement (.rnd x kk) := of_masked (formatXK_masked _ _ _)
theorem drw (x y : RegIdx) (n : Imm4) : Statement (.drw x y n) := of_masked (formatXYN_masked _ _ _ _)
theorem skp (x : RegIdx) : Statement (.skp x) := of_masked (formatXK_masked_sub _ _ _)
theorem sknp (x : RegIdx) : Statement (.sknp x) := of_masked (formatXK_masked_sub _ _ _)
theorem ldVxDt (x : RegIdx) : Statement (.ldVxDt x) := of_masked (formatXK_masked_sub _ _ _)
theorem ldVxK (x : RegIdx) : Statement (.ldVxK x) := of_masked (formatXK_masked_sub _ _ _)
theorem ldDtVx (x : RegIdx) : Statement (.ldDtVx x) := of_masked (formatXK_masked_sub _ _ _)
theorem ldStVx (x : RegIdx) : Statement (.ldStVx x) := of_masked (formatXK_masked_sub _ _ _)
theorem addIVx (x : RegIdx) : Statement (.addIVx x) := of_masked (formatXK_masked_sub _ _ _)
theorem ldFVx (x : RegIdx) : Statement (.ldFVx x) := of_masked (formatXK_masked_sub _ _ _)
theorem ldBVx (x : RegIdx) : Statement (.ldBVx x) := of_masked (formatXK_masked_sub _ _ _)
theorem ldMemVx (x : RegIdx) : Statement (.ldMemVx x) := of_masked (formatXK_masked_sub _ _ _)
theorem ldVxMem (x : RegIdx) : Statement (.ldVxMem x) := of_masked (formatXK_masked_sub _ _ _)

end Sys2Proof.Laws.EncodingRow
end

