-- ==== Sys2Proof/Tests/Slice0.lean ====
section
/-! SUPPORT. Tests. Expected values are the vectors of spec/95_test_vectors.md (their names stand in the theorems' names) and
words written out from the encodings of the spec's 4N files, never the model's own answers. -/

namespace Sys2Proof.Tests

open Machine

/-! ### Helpers: the base state B(mode) and the single-instruction vectors of 95_test_vectors.md section 0 -/

/-- The next state of an outcome, if it is one. -/
def nextOf : Host.Outcome State Fault Refusal → Option State
  | .next s => some s
  | .fault _ => none
  | .refused _ => none

/-- B(CHIP8). -/
def b8 : State := State.reset

/-- B(CHIP48). -/
def b48 : State := { State.reset with mode := .chip48 }

/-- Overrides of general registers. -/
def regs (l : List (RegIdx × Byte)) (s : State) : State := l.foldl (fun s p => s.setV p.1 p.2) s

/-- The stack of the vectors' `sp = k*`: entry `j` is 0x0222 + 2 j. -/
def starred (k : Fin 17) (s : State) : State :=
  { s with sp := k, stack := Vector.ofFn fun j => if j.val < k.val then BitVec.ofNat 16 (0x222 + 2 * j.val) else 0#16 }

/-- The columns `a` to `b` of a row. -/
def cols (a b : Nat) : BitVec 64 := BitVec.ofNat 64 (2 ^ (b + 1) - 2 ^ a)

/-- A screen from its lit rows. -/
def lit (rows : List (Nat × BitVec 64)) : Framebuffer := Vector.ofFn fun r => (rows.lookup r.val).getD 0#64

/-- Bytes in memory from an address on. -/
def bytes (a : Nat) (l : List Byte) (s : State) : State := { s with mem := s.mem.writeList a l }

/-- One `Step` on the word at `pc` ends in the start state changed by `change` and in nothing else. -/
def ends (word : Nat) (start : State) (change : State → State) : Bool :=
  decide (nextOf (step (start.withFetchWord 16 word)) = some (change (start.withFetchWord 16 word)))

/-- FAULTED(c, p, n) of the vectors. -/
def faulted (c : FaultCause) (p n : Word) (s : State) : State :=
  { s with status := .faulted, faultCause := c, faultPc := p, faultInfo := n }

/-- `pc` after an instruction at 0x200 that advances. -/
def adv (s : State) : State := { s with pc := 0x202#16 }

/-! ### Well-formedness: an ill-formed word of each family of R66 is refused -/

theorem test_wf_family0 : wordDefined 0x00E1#16 = false ∧ wordDefined 0x01E0#16 = false := by decide
theorem test_wf_family5 : wordDefined 0x5121#16 = false := by decide
theorem test_wf_family8 : wordDefined 0x8128#16 = false ∧ wordDefined 0x812F#16 = false := by decide
theorem test_wf_family9 : wordDefined 0x9121#16 = false := by decide
theorem test_wf_familyE : wordDefined 0xE29F#16 = false := by decide
theorem test_wf_familyF : wordDefined 0xF2FF#16 = false := by decide
theorem test_wf_accepts : wordDefined 0x00E0#16 = true ∧ wordDefined 0xF265#16 = true := by decide

/-! ### Decoding: every constructor from a word written out bit by bit (R65 and the rules of the 4N files) -/

theorem test_decode_control :
    decodeWord 0b0000000011101110#16 = .ok .ret ∧
    decodeWord 0b0001001000110100#16 = .ok (.jp 0x234#12) ∧
    decodeWord 0b0010001100000000#16 = .ok (.call 0x300#12) ∧
    decodeWord 0b0011001100101010#16 = .ok (.seKk 3#4 0x2A#8) ∧
    decodeWord 0b0100001100101010#16 = .ok (.sneKk 3#4 0x2A#8) ∧
    decodeWord 0b0101000100100000#16 = .ok (.seVy 1#4 2#4) ∧
    decodeWord 0b1001000100100000#16 = .ok (.sneVy 1#4 2#4) ∧
    decodeWord 0b1011001001010000#16 = .ok (.jpV0 0x250#12) := by decide

theorem test_decode_alu :
    decodeWord 0b0110101000111100#16 = .ok (.ldKk 10#4 0x3C#8) ∧
    decodeWord 0b0111000100000010#16 = .ok (.addKk 1#4 2#8) ∧
    decodeWord 0b1000000100100000#16 = .ok (.ldVy 1#4 2#4) ∧
    decodeWord 0b1000000100100001#16 = .ok (.orVy 1#4 2#4) ∧
    decodeWord 0b1000000100100010#16 = .ok (.andVy 1#4 2#4) ∧
    decodeWord 0b1000000100100011#16 = .ok (.xorVy 1#4 2#4) ∧
    decodeWord 0b1000000100100100#16 = .ok (.addVy 1#4 2#4) ∧
    decodeWord 0b1000000100100101#16 = .ok (.subVy 1#4 2#4) ∧
    decodeWord 0b1000000100100110#16 = .ok (.shrVy 1#4 2#4) ∧
    decodeWord 0b1000000100100111#16 = .ok (.subnVy 1#4 2#4) ∧
    decodeWord 0b1000000100101110#16 = .ok (.shlVy 1#4 2#4) := by decide

theorem test_decode_memory :
    decodeWord 0b1010001011110000#16 = .ok (.ldI 0x2F0#12) ∧
    decodeWord 0b1111001100011110#16 = .ok (.addIVx 3#4) ∧
    decodeWord 0b1111010000101001#16 = .ok (.ldFVx 4#4) ∧
    decodeWord 0b1111000000110011#16 = .ok (.ldBVx 0#4) ∧
    decodeWord 0b1111001001010101#16 = .ok (.ldMemVx 2#4) ∧
    decodeWord 0b1111001001100101#16 = .ok (.ldVxMem 2#4) := by decide

theorem test_decode_display :
    decodeWord 0b0000000011100000#16 = .ok .cls ∧ decodeWord 0b1101000000010101#16 = .ok (.drw 0#4 1#4 5#4) := by decide

theorem test_decode_environment :
    decodeWord 0b1100001100001111#16 = .ok (.rnd 3#4 0x0F#8) ∧
    decodeWord 0b1110001010011110#16 = .ok (.skp 2#4) ∧
    decodeWord 0b1110001010100001#16 = .ok (.sknp 2#4) ∧
    decodeWord 0b1111010000000111#16 = .ok (.ldVxDt 4#4) ∧
    decodeWord 0b1111001100001010#16 = .ok (.ldVxK 3#4) ∧
    decodeWord 0b1111010000010101#16 = .ok (.ldDtVx 4#4) ∧
    decodeWord 0b1111010000011000#16 = .ok (.ldStVx 4#4) := by decide

/-- The families of R66 are rejected by name. -/
theorem test_decode_rejects :
    decodeWord 0x0123#16 = .error (.sysCall 0x123#12) ∧ decodeWord 0x5121#16 = .error (.skipEqualSub 1#4) ∧
    decodeWord 0x8128#16 = .error (.aluSub 8#4) ∧ decodeWord 0x9121#16 = .error (.skipUnequalSub 1#4) ∧
    decodeWord 0xE29F#16 = .error (.keySub 0x9F#8) ∧ decodeWord 0xF2FF#16 = .error (.miscSub 0xFF#8) ∧
    decodeBytes [0x12#8] = .error .truncated := by decide

/-- The encoder writes the words of the vectors. -/
theorem test_encode :
    encode (.jp 0x234#12) = 0x1234#16 ∧ encode (.shlVy 1#4 2#4) = 0x812E#16 ∧ encode (.rnd 3#4 0x0F#8) = 0xC30F#16 ∧
    encodeBytes (.drw 0#4 1#4 5#4) = [0xD0#8, 0x15#8] := by decide

/-! ### Control transfer -/

theorem test_T100a : ends 0x00EE { b8 with pc := 0x300, sp := 1, stack := b8.stack.set 0 0x206 }
    (fun s => { s with pc := 0x206, sp := 0 }) = true := by decide
theorem test_T100b : ends 0x00EE { starred 16 b8 with pc := 0x300 } (fun s => { s with pc := 0x240, sp := 15 }) = true := by
  decide
theorem test_T100c : ends 0x00EE { b8 with pc := 0x300 } (faulted .stackUnderflow 0x300 0) = true := by decide
theorem test_T101a : ends 0x1234 b8 (fun s => { s with pc := 0x234 }) = true := by decide
theorem test_T101d : ends 0x1201 b8 (fun s => { s with pc := 0x201 }) = true := by decide
theorem test_T102b : ends 0x2300 { starred 15 b8 with pc := 0x204 }
    (fun s => { s with pc := 0x300, sp := 16, stack := s.stack.set 15 0x206 }) = true := by decide
theorem test_T102c : ends 0x2300 { starred 16 b8 with pc := 0x204 } (faulted .stackOverflow 0x204 0x10) = true := by decide
theorem test_T103a : ends 0x332A (regs [(3, 0x2A)] b8) (fun s => { s with pc := 0x204 }) = true := by decide
theorem test_T103b : ends 0x332A (regs [(3, 0x2B)] b8) adv = true := by decide
theorem test_T104a : ends 0x432A (regs [(3, 0x2A)] b8) adv = true := by decide
theorem test_T104b : ends 0x432A b8 (fun s => { s with pc := 0x204 }) = true := by decide
theorem test_T105a : ends 0x5120 (regs [(1, 7), (2, 7)] b8) (fun s => { s with pc := 0x204 }) = true := by decide
theorem test_T105b : ends 0x5120 (regs [(1, 7), (2, 8)] b8) adv = true := by decide
theorem test_T106a : ends 0x9120 (regs [(1, 7), (2, 8)] b8) (fun s => { s with pc := 0x204 }) = true := by decide
theorem test_T106b : ends 0x9120 (regs [(1, 7), (2, 7)] b8) adv = true := by decide
theorem test_T107a_chip8 : ends 0xB250 (regs [(0, 0x10), (2, 4)] b8) (fun s => { s with pc := 0x260 }) = true := by decide
theorem test_T107a_chip48 : ends 0xB250 (regs [(0, 0x10), (2, 4)] b48) (fun s => { s with pc := 0x254 }) = true := by
  decide

/-! ### Load and ALU -/

theorem test_T120a : ends 0x6A3C b8 (regs [(10, 0x3C)] ∘ adv) = true := by decide
theorem test_T120b : ends 0x6FFF b8 (regs [(15, 0xFF)] ∘ adv) = true := by decide
theorem test_T121a : ends 0x7102 (regs [(1, 0xFF)] b8) (regs [(1, 1)] ∘ adv) = true := by decide
theorem test_T121c : ends 0x7F01 (regs [(15, 0xFF)] b8) (regs [(15, 0)] ∘ adv) = true := by decide
theorem test_T122a : ends 0x8120 (regs [(2, 0x55)] b8) (regs [(1, 0x55)] ∘ adv) = true := by decide
theorem test_T122b : ends 0x8F10 (regs [(1, 0x77)] b8) (regs [(15, 0x77)] ∘ adv) = true := by decide
theorem test_T123b : ends 0x8F11 (regs [(1, 0xAA), (15, 0x55)] b8) (regs [(15, 0)] ∘ adv) = true := by decide
theorem test_T123c : ends 0x81F1 (regs [(1, 0x0A), (15, 0x50)] b8) (regs [(1, 0x5A), (15, 0)] ∘ adv) = true := by decide
theorem test_T124a : ends 0x8122 (regs [(1, 0xF5), (2, 0x3F), (15, 1)] b8) (regs [(1, 0x35), (15, 0)] ∘ adv) = true := by
  decide
theorem test_T124b : ends 0x8F12 (regs [(1, 0xFF), (15, 0xFF)] b8) (regs [(15, 0)] ∘ adv) = true := by decide
theorem test_T125a : ends 0x8123 (regs [(1, 0xFF), (2, 0x0F), (15, 1)] b8) (regs [(1, 0xF0), (15, 0)] ∘ adv) = true := by
  decide
theorem test_T125b : ends 0x8113 (regs [(1, 0x5A), (15, 1)] b8) (regs [(1, 0), (15, 0)] ∘ adv) = true := by decide
theorem test_T126a : ends 0x8124 (regs [(1, 0xC8), (2, 0x64)] b8) (regs [(1, 0x2C), (15, 1)] ∘ adv) = true := by decide
theorem test_T126f : ends 0x8F14 (regs [(1, 1), (15, 0xFF)] b8) (regs [(15, 1)] ∘ adv) = true := by decide
theorem test_T127a : ends 0x8125 (regs [(1, 5), (2, 0x0A)] b8) (regs [(1, 0xFB)] ∘ adv) = true := by decide
theorem test_T127c : ends 0x8125 (regs [(1, 7), (2, 7)] b8) (regs [(1, 0), (15, 1)] ∘ adv) = true := by decide
theorem test_T128a_chip8 : ends 0x8126 (regs [(1, 0x10), (2, 7)] b8) (regs [(1, 3), (15, 1)] ∘ adv) = true := by decide
theorem test_T128d_chip48 : ends 0x8F26 (regs [(2, 5), (15, 8)] b48) (regs [(15, 0)] ∘ adv) = true := by decide
theorem test_T129a : ends 0x8127 (regs [(1, 5), (2, 0x0A)] b8) (regs [(15, 1)] ∘ adv) = true := by decide
theorem test_T129b : ends 0x8127 (regs [(1, 0x0A), (2, 5)] b8) (regs [(1, 0xFB)] ∘ adv) = true := by decide
theorem test_T130a_chip8 : ends 0x812E (regs [(1, 0x81), (2, 0x40)] b8) (regs [(1, 0x80)] ∘ adv) = true := by decide
theorem test_T130a_chip48 : ends 0x812E (regs [(1, 0x81), (2, 0x40)] b48) (regs [(1, 2), (15, 1)] ∘ adv) = true := by
  decide

/-! ### Index register, loads and stores -/

theorem test_T140a : ends 0xA2F0 b8 (fun s => { adv s with i := 0x2F0 }) = true := by decide
theorem test_T140b : ends 0xAFFF b8 (fun s => { adv s with i := 0xFFF }) = true := by decide
theorem test_T141a : ends 0xF31E (regs [(3, 5)] { b8 with i := 0xFFE }) (fun s => { adv s with i := 0x1003 }) = true := by
  decide
theorem test_T141b : ends 0xF31E (regs [(3, 2)] { b8 with i := 0xFFFF }) (fun s => { adv s with i := 1 }) = true := by
  decide
theorem test_T142a : ends 0xF429 (regs [(4, 0x0A)] b8) (fun s => { adv s with i := 0x32 }) = true := by decide
theorem test_T142d : ends 0xF429 (regs [(4, 0xFF)] { b8 with i := 7 }) (fun s => { adv s with i := 0x4FB }) = true := by
  decide
theorem test_T143d : ends 0xF033 (regs [(0, 0x7B)] { b8 with i := 0xFFD }) (bytes 0xFFD [1, 2, 3] ∘ adv) = true := by decide
theorem test_T143e : ends 0xF033 (regs [(0, 0x7B)] { b8 with i := 0xFFE }) (faulted .memOutOfRange 0x200 0xFFE) = true := by
  decide
theorem test_T144a_chip8 : ends 0xF255 (regs [(0, 0x11), (1, 0x22), (2, 0x33)] { b8 with i := 0x400 })
    (fun s => { bytes 0x400 [0x11, 0x22, 0x33] (adv s) with i := 0x403 }) = true := by decide
theorem test_T144e_chip48 : ends 0xF055 (regs [(0, 0x77)] { b48 with i := 0xFFF }) (bytes 0xFFF [0x77] ∘ adv) = true := by
  decide
theorem test_T145a_chip48 :
    ends 0xF265 (regs [(3, 0x99)] { bytes 0x400 [0x11, 0x22, 0x33, 0x44] b48 with i := 0x400 })
      (fun s => { regs [(0, 0x11), (1, 0x22), (2, 0x33)] (adv s) with i := 0x402 }) = true := by decide
theorem test_T145c_chip8 : ends 0xF165 b8 (fun s => { regs [(0, 0xF0), (1, 0x90)] (adv s) with i := 2 }) = true := by decide

/-! ### Framebuffer -/

theorem test_T160a : ends 0x00E0 (regs [(15, 1)] { b8 with fb := lit [(0, cols 0 0), (31, cols 63 63)] })
    (fun s => { adv s with fb := lit [], drawPending := true }) = true := by decide
theorem test_T161d : ends 0xD012 (regs [(0, 62)] { bytes 0x300 [0xFF, 0x81] b8 with i := 0x300 })
    (fun s => { adv s with fb := lit [(0, cols 62 63), (1, cols 62 62)], drawPending := true }) = true := by decide
theorem test_T161j : ends 0xD012 (regs [(0, 64), (1, 31)] { bytes 0x300 [0xFF, 0x81] b8 with i := 0x300 })
    (fun s => { adv s with fb := lit [(31, cols 0 7), (0, cols 0 0 ||| cols 7 7)], drawPending := true }) = true := by decide

/-! ### Random, keys, timers -/

/-- T170a, with the byte 0xA7 given: `Cxkk` itself takes a free value. -/
theorem test_T170a : maskRandom 0xA7#8 3#4 0x0F#8 b8 = regs [(3, 7)] (adv b8) := by decide
theorem test_T171a : ends 0xE29E (regs [(2, 5)] { b8 with keys := 0x20 }) (fun s => { s with pc := 0x204 }) = true := by
  decide
theorem test_T171c : ends 0xE29E (regs [(2, 16)] { b8 with keys := 1 }) (faulted .keyIndexOutOfRange 0x200 0x10) = true := by
  decide
theorem test_T172a : ends 0xE2A1 (regs [(2, 5)] b8) (fun s => { s with pc := 0x204 }) = true := by decide
theorem test_T172b : ends 0xE2A1 (regs [(2, 5)] { b8 with keys := 0x20 }) adv = true := by decide
theorem test_T173a : ends 0xF407 { b8 with dt := 0x3C } (regs [(4, 0x3C)] ∘ adv) = true := by decide
theorem test_T174a : ends 0xF30A (regs [(3, 0x77)] b8) id = true := by decide
theorem test_T174b : ends 0xF30A (regs [(3, 0x77)] { b8 with keys := 0x280 }) (regs [(3, 7)] ∘ adv) = true := by decide
theorem test_T175a : ends 0xF415 (regs [(4, 0x3C)] b8) (fun s => { adv s with dt := 0x3C }) = true := by decide
theorem test_T176a : ends 0xF418 (regs [(4, 5)] b8) (fun s => { adv s with st := 5 }) = true := by decide

/-! ### Undefined words, fetch, host operations -/

theorem test_T67c : ends 0x5121 (regs [(1, 1), (2, 1)] b8) (fun s => { adv s with log := [⟨0x200, 0x5121⟩] }) = true := by
  decide
theorem test_T68b : ends 0x812F { b8 with pc := 0x20A, strictDecode := true } (faulted .illegalInstruction 0x20A 0x812F)
    = true := by decide
theorem test_T202a : nextOf (step { b8 with pc := 0xFFF }) = some (faulted .fetchOutOfRange 0xFFF 0xFFF { b8 with pc := 0xFFF }) := by
  decide
theorem test_T202c : ends 0x6A01 { b8 with pc := 0xFFE } (fun s => { regs [(10, 1)] s with pc := 0x1000 }) = true := by decide
theorem test_T43a : ends 0x6A01 { b8 with pc := 0x201 } (fun s => { regs [(10, 1)] s with pc := 0x203 }) = true := by decide
/-- V-RST1. -/
theorem test_VRST1 :
    (State.resetWith .chip8 [0x12, 0x00] Config.font false).mem.read 0x200 = 0x12#8 ∧
    (State.resetWith .chip8 [0x12, 0x00] Config.font false).mem.read 0x202 = 0#8 ∧
    (State.resetWith .chip8 [0x12, 0x00] Config.font false).mem.read 0x4B = 0xF0#8 ∧
    (State.resetWith .chip8 [0x12, 0x00] Config.font false).mem.read 0x4F = 0x80#8 := by decide
/-- The TimerTick vectors of section 5. -/
theorem test_timerTick :
    State.timerTick { b8 with dt := 0x3C } = { b8 with dt := 0x3B } ∧
    State.timerTick { b8 with dt := 1, st := 1 } = b8 ∧ State.timerTick { b8 with st := 0xFF } = { b8 with st := 0xFE } := by
  decide
/-- Section 8: operations on a FAULTED core. -/
theorem test_faultedOperations :
    State.timerTick (faulted .stackUnderflow 0x300 0 { b8 with dt := 9 }) = faulted .stackUnderflow 0x300 0 { b8 with dt := 9 } ∧
    State.setKeys (faulted .stackUnderflow 0x300 0 b8) 0xFFFF#16 = faulted .stackUnderflow 0x300 0 b8 ∧
    State.readStatus (faulted .stackUnderflow 0x300 0 b8) = ⟨.faulted, 4#3, 0x300#16, 0#16⟩ := by decide

/-- Section 8: Reset of a FAULTED core gives B(mode), with the log kept (log entry 19). -/
theorem test_resetFaulted :
    State.doReset (faulted .stackUnderflow 0x300 0 { b8 with dt := 9, sp := 3 }) .chip48 [] Config.font false = b48 := by decide
/-- R248: a tick on 00E0 presents the cleared picture and consumes the flag; DT counts once. -/
theorem test_tick_presents : (match tick 5 0x1#16 ({ b8 with dt := 9 }.withFetchWord 16 0x00E0) with
    | .next (p, t) => p.isSome && !t.drawPending && decide (t.dt = 8#8) && decide (t.keys = 1#16)
    | _ => false) = true := by decide

/-! ### Witnesses: the hypotheses of every statement that has some are met together, each clause at its boundary -/

theorem witness_DecodeAcceptsExactlyTheTable : decodeWord 0xF265#16 = .ok (.ldVxMem 2#4) := by decide
theorem witness_OpcodeRowsDisjoint :
    (⟨0x00EE, 0xFFFF⟩ : OpcodeRow) ∈ opcodeTable ∧ OpcodeRow.selects ⟨0x00EE, 0xFFFF⟩ 0x00EE#16 = true := by decide
theorem witness_FetchReadsBigEndianWord :
    State.pc { b8 with pc := 0xFFE } = BitVec.ofNat 16 4094 ∧ 4095 ≤ (State.pc { b8 with pc := 0xFFF }).toNat := by decide
theorem witness_StepRunsDecodedInstruction : b8.status = .running ∧ b8.pc.toNat ≤ 4094 ∧
    decodeBytes [(b8.withFetchWord 16 0x1234).mem.read 0x200, (b8.withFetchWord 16 0x1234).mem.read 0x201] =
      .ok (.jp 0x234#12, []) := by decide
theorem witness_FetchOutOfRangeFaults :
    State.status { b8 with pc := 0xFFF } = .running ∧ 4095 ≤ (State.pc { b8 with pc := 0xFFF }).toNat := by decide
theorem witness_UndefinedWordNoopOrFault : b8.status = .running ∧ fetchWord b8 = some 0#16 ∧ wordDefined 0#16 = false ∧
    b8.strictDecode = false ∧ fetchWord { b8 with strictDecode := true } = some 0#16 := by decide
theorem witness_FaultedCoreIsFrozen : (faulted .stackUnderflow 0x200 0 b8).status = .faulted ∧
    (∀ op ∈ [Operation.step, .setKeys 5#16, .consumeDrawPending], op.isReset = false) := by decide
theorem witness_CallPushesReturnAddress : b8.sp.val < 16 ∧ (starred 15 b8).sp.val < 16 := by decide
theorem witness_ReturnPopsPc : 0 < (starred 1 b8).sp.val ∧ 0 < (starred 16 b8).sp.val := by decide
theorem witness_StackLimitsFault : (starred 16 b8).sp = 16 ∧ b8.sp = 0 := by decide
theorem witness_ReturnAfterCall :
    ∃ t, exec (.call 0x300#12) (starred 15 b8) = .next t ∧ (starred 15 b8).sp.val < 16 ∧ t.sp = 16 := ⟨_, rfl, by decide, rfl⟩
theorem witness_JumpWithOffset : b8.mode = .chip8 ∧ b48.mode = .chip48 := by decide
theorem witness_ShiftRightByMode :
    (b8.mode = .chip8 ∧ 0#8 = b8.getV 2#4) ∧ (b48.mode = .chip48 ∧ 0#8 = b48.getV 1#4) := by decide
theorem witness_ShiftLeftByMode :
    (b8.mode = .chip8 ∧ 0#8 = b8.getV 15#4) ∧ (b48.mode = .chip48 ∧ 0#8 = b48.getV 15#4) := by decide
theorem witness_ModeAffectsOnlyFive :
    (Instr.drw 0#4 1#4 5#4).modeDependent = false ∧ (1#4) ≠ 15#4 ∧ 0x100 ≤ (0x100#12).toNat := by decide
theorem witness_StoreDecimalDigits :
    b8.mem.wf = true ∧ (State.i { b8 with i := 0xFFD }).toNat + 2 ≤ 4095 := by decide
theorem witness_StoreRegisters :
    b8.mem.wf = true ∧ (State.i { b8 with i := 0xFF0 }).toNat + (15#4).toNat ≤ 4095 ∧ b8.mode = .chip8 ∧ b48.mode = .chip48 := by
  decide
theorem witness_LoadRegisters :
    (State.i { b8 with i := 0xFFF }).toNat + (0#4).toNat ≤ 4095 ∧ b8.mode = .chip8 ∧ b48.mode = .chip48 := by decide
theorem witness_StoreLoadRoundTrip : ∃ t, exec (.ldMemVx 15#4) { b8 with i := 0xFF0 } = .next t ∧ b8.mem.wf = true ∧
    (State.i { b8 with i := 0xFF0 }).toNat + (15#4).toNat ≤ 4095 := ⟨_, rfl, by decide, by decide⟩
theorem witness_DataAccessOutOfRangeFaults :
    4095 < (State.i { b8 with i := 0xFFE }).toNat + 2 ∧ 4095 < (State.i { b8 with i := 0xFF1 }).toNat + (15#4).toNat ∧
    4095 < (State.i { b8 with i := 0x1000 }).toNat + (0#4).toNat ∧
    1 ≤ (1#4).toNat ∧ 4095 < (State.i { b8 with i := 0x1000 }).toNat + (1#4).toNat - 1 ∧
    4095 < (State.i { b8 with i := 0xFF2 }).toNat + (15#4).toNat - 1 := by decide
theorem witness_DrawInvertsCoveredPixels :
    0#4 = 0#4 ∧ (State.i { b8 with i := 0xFF1 }).toNat + (15#4).toNat - 1 ≤ 4095 := by decide
/-- The two collision clauses: glyph 0 drawn at the origin of an empty and of a full screen. -/
theorem witness_DrawInvertsCoveredPixels_collision :
    spriteCollides { b8 with fb := lit [(0, cols 0 63)] } 0#4 1#4 1#4 ∧ ¬ spriteCollides b8 0#4 1#4 1#4 := by
  refine ⟨⟨0, by decide, 0, by decide, ⟨0, by decide, 0, by decide, by decide, by decide⟩, by decide⟩, ?_⟩
  rintro ⟨r, _, c, _, _, h⟩
  simp [b8, State.reset, Framebuffer.pixel] at h
theorem witness_DrawTwiceRestoresScreen : ∃ t u, exec (.drw 0#4 1#4 5#4) b8 = .next t ∧ t.getV 0#4 = b8.getV 0#4 ∧
    t.getV 1#4 = b8.getV 1#4 ∧ exec (.drw 0#4 1#4 5#4) t = .next u := ⟨_, _, rfl, by decide, by decide, rfl⟩
theorem witness_InsideOriginClips : ∃ t, exec (.drw 0#4 1#4 5#4) (regs [(0, 63), (1, 31)] b8) = .next t ∧
    ((regs [(0, 63), (1, 31)] b8).getV 0#4).toNat ≤ 63 ∧ ((regs [(0, 63), (1, 31)] b8).getV 1#4).toNat ≤ 31 :=
  ⟨_, rfl, by decide, by decide⟩
theorem witness_SkipOnKey : ((regs [(2, 15)] b8).getV 2#4).toNat ≤ 15 := by decide
theorem witness_KeyIndexOutOfRangeFaults : 15 < ((regs [(2, 16)] b8).getV 2#4).toNat := by decide
theorem witness_KeyWaitChangesNothing : ∀ k < 16, b8.keys.getLsbD k = false := by decide
theorem witness_KeyWaitCapturesLeastKey : ∃ k < 16, (State.keys { b8 with keys := 0x8000 }).getLsbD k = true :=
  ⟨15, by decide, by decide⟩
theorem witness_TimerTickCountsDown :
    b8.status = .running ∧ (faulted .stackUnderflow 0x200 0 b8).status = .faulted := by decide
theorem witness_SetKeysReplacesAllKeys :
    b8.status = .running ∧ (faulted .stackUnderflow 0x200 0 b8).status = .faulted ∧ 15 < 16 := by decide
theorem witness_FramebufferPort : 31 < 32 ∧ 63 < 64 := by decide
theorem witness_ResetMemoryImage : 79 < 80 ∧ 4095 < 4096 ∧ 0x200 ≤ 4095 ∧ 4095 - 0x200 < min 4000 3584 := by decide
theorem witness_BurstIsBoundedRun : ∃ t, burst 0 b8 = .next t := ⟨_, rfl⟩
/-- The two early ends of a burst: a draw, and a fault. -/
theorem witness_BurstIsBoundedRun_early :
    (∃ t, burst 1 (b8.withFetchWord 16 0x00E0) = .next t) ∧ (∃ t, burst 1 (b8.withFetchWord 16 0x00EE) = .next t) :=
  ⟨⟨_, rfl⟩, ⟨_, rfl⟩⟩
theorem witness_GeneralRegisterFrame :
    ∃ t, exec (.addVy 1#4 2#4) b8 = .next t ∧ (Instr.addVy 1#4 2#4).writesReg 14#4 = false := ⟨_, rfl, by decide⟩
theorem witness_MemoryFrame : ∃ t, exec (.ldBVx 1#4) { b8 with i := 0x300 } = .next t ∧
    (0x2FF < 0x300 ∧ 0x300 + (Instr.ldBVx 1#4).storeLength ≤ 0x303) := ⟨_, rfl, by decide⟩
theorem witness_IndexStackTimerFrame : ∃ t, exec .cls b8 = .next t ∧ (∀ nnn, Instr.cls ≠ .ldI nnn) ∧
    (∀ x, Instr.cls ≠ .addIVx x ∧ Instr.cls ≠ .ldFVx x ∧ Instr.cls ≠ .ldMemVx x ∧ Instr.cls ≠ .ldVxMem x) ∧
    (∀ nnn, Instr.cls ≠ .call nnn) ∧ Instr.cls ≠ .ret ∧ (∀ x, Instr.cls ≠ .ldDtVx x) ∧ (∀ x, Instr.cls ≠ .ldStVx x) :=
  ⟨_, rfl, by simp⟩
theorem witness_ScreenKeysModeFrame_operation :
    Operation.step.isReset = false ∧ ∃ t, Operation.step.apply b48 = .next t := ⟨rfl, _, rfl⟩
theorem witness_ScreenKeysModeFrame : ∃ t, exec .ret { starred 1 b8 with drawPending := true } = .next t ∧
    Instr.ret ≠ .cls ∧ (∀ x y n, Instr.ret ≠ .drw x y n) ∧ (∀ x kk, Instr.ret ≠ .rnd x kk) := ⟨_, rfl, by simp⟩
theorem witness_PcAdvancesByTwo : (∃ t, exec .cls b8 = .next t ∧ t.status = .running ∧ Instr.cls.writesPc = false) ∧
    (∃ t, exec .ret b8 = .next t ∧ t.status = .faulted) ∧ b8.status = .running := ⟨⟨_, rfl, rfl, rfl⟩, ⟨_, rfl, rfl⟩, rfl⟩
theorem witness_FaultsArePrecise : b8.status = .running ∧ (∃ t, exec .ret b8 = .next t ∧ t.status = .faulted) ∧
    (∃ t, exec .cls b8 = .next t ∧ t.status = .running) := ⟨rfl, ⟨_, rfl, rfl⟩, ⟨_, rfl, rfl⟩⟩
theorem witness_StepKeepsSoundState : b8.Inv ∧ ∃ t, step b8 = .next t := ⟨by decide, _, rfl⟩
theorem witness_OperationsKeepSoundState : (starred 16 b8).Inv := by decide
theorem witness_SoundTimerIsUnobservable : sameButSoundTimer b8 { b8 with st := 7 } := rfl
theorem witness_DeadStackIsUnobservable :
    sameButDeadStack (starred 1 b8) { starred 1 b8 with stack := (starred 1 b8).stack.set 1 0xABC } :=
  ⟨rfl, by decide⟩

end Sys2Proof.Tests
end

section
/-! PROOFS. Control flow (spec/40_control_flow.md): the jump (R101) and the skips on an immediate (R103, R104). -/

namespace Sys2Proof

namespace Machine

/-! ### What the instructions compute -/

theorem exec_jp (nnn : Imm12) (s : State) : exec (.jp nnn) s = .next (s.setPc (nnn.setWidth 16)) := rfl

theorem exec_seKk (x : RegIdx) (kk : Byte) (s : State) :
    exec (.seKk x kk) s = .next (s.skipIf (decide (s.getV x = kk))) := rfl

theorem exec_sneKk (x : RegIdx) (kk : Byte) (s : State) :
    exec (.sneKk x kk) s = .next (s.skipIf (decide (s.getV x ≠ kk))) := rfl

/-- A skip is one write of `pc`, past the next instruction exactly when its condition holds (R103 to R106). -/
theorem State.skipIf_decide (s : State) (p : Prop) [Decidable p] :
    s.skipIf (decide p) = { s with pc := if p then s.pc + 4#16 else s.pc + 2#16 } := by
  by_cases h : p
  · simp [h, State.skipIf, State.setPc]
  · simp [h, State.skipIf, State.advance, State.setPc]

/-! ### The obligations -/

/-- Settles O10: the word is format A with opcode 1, and the meaning is one write of `pc`. -/
theorem jumpLoadsPc : Obligations.JumpLoadsPc := by
  intro nnn s
  constructor
  · exact formatA_toNat 0x1#4 nnn
  · rw [exec_jp, State.setPc, BitVec.ofNat_toNat]

/-- Settles O15: both words are format XK, and both meanings are the one skip, on a condition and on its negation. -/
theorem skipOnImmediate : Obligations.SkipOnImmediate := by
  intro x kk s
  refine ⟨formatXK_toNat 0x3#4 x kk, formatXK_toNat 0x4#4 x kk, ?seKk, ?sneKk⟩
  case seKk => rw [exec_seKk, State.skipIf_decide]
  case sneKk => rw [exec_sneKk, State.skipIf_decide, ite_not]

end Machine

end Sys2Proof
end

section
/-! PROOFS. Register load and ALU instructions (spec/41_load_alu.md): the loads (R120, R122), the immediate add (R121) and
the bitwise operations (R123 to R125). -/

namespace Sys2Proof

namespace Machine

/-! ### What the instructions compute -/

theorem exec_ldKk (x : RegIdx) (kk : Byte) (s : State) : exec (.ldKk x kk) s = .next (s.advance.setV x kk) := rfl

theorem exec_addKk (x : RegIdx) (kk : Byte) (s : State) :
    exec (.addKk x kk) s = .next (s.advance.setV x (s.getV x + kk)) := rfl

theorem exec_ldVy (x y : RegIdx) (s : State) : exec (.ldVy x y) s = .next (s.advance.setV x (s.getV y)) := rfl

theorem exec_orVy (x y : RegIdx) (s : State) :
    exec (.orVy x y) s = .next (aluWrite x (s.getV x ||| s.getV y) 0#8 s) := rfl

theorem exec_andVy (x y : RegIdx) (s : State) :
    exec (.andVy x y) s = .next (aluWrite x (s.getV x &&& s.getV y) 0#8 s) := rfl

theorem exec_xorVy (x y : RegIdx) (s : State) :
    exec (.xorVy x y) s = .next (aluWrite x (s.getV x ^^^ s.getV y) 0#8 s) := rfl

/-! ### The words -/

/-- A word of format XYN with its two fixed nibbles, the first and the last, put together before the register numbers. -/
theorem formatXYN_toNat_opcode (o : BitVec 4) (x y : RegIdx) (n : Imm4) :
    (formatXYN o x y n).toNat = (o.toNat * 4096 + n.toNat) + x.toNat * 256 + y.toNat * 16 := by
  rw [formatXYN_toNat]
  omega

/-! ### The end of an instruction that writes one register and no flag -/

/-- Everything the advance and one register write do to the registers. -/
theorem State.getV_advance_setV (s : State) (x : RegIdx) (b : Byte) (k : RegIdx) :
    (s.advance.setV x b).getV k = if k = x then b else s.getV k := by
  rw [State.getV_setV, State.getV_advance]

/-- The advance and one register write change the register file and `pc`, nothing else. -/
theorem State.advance_setV_frame (s : State) (x : RegIdx) (b : Byte) :
    s.advance.setV x b = { s with v := (s.advance.setV x b).v, pc := s.pc + 2#16 } := rfl

/-! ### The obligations -/

/-- Settles O18: the words are formats XK and XYN, and each meaning is the advance and one write of `v[x]`. -/
theorem loadImmediateAndCopy : Obligations.LoadImmediateAndCopy := by
  intro x y kk s
  refine ⟨formatXK_toNat 0x6#4 x kk, formatXYN_toNat 0x8#4 x y 0x0#4, ?ldKk, ?ldVy⟩
  case ldKk => exact ⟨_, exec_ldKk x kk s, s.getV_advance_setV x kk, s.advance_setV_frame x kk⟩
  case ldVy => exact ⟨_, exec_ldVy x y s, s.getV_advance_setV x (s.getV y), s.advance_setV_frame x (s.getV y)⟩

/-- Settles O19: the addition of bytes is the sum modulo 256, and the one register written is `v[x]`. -/
theorem addImmediateWritesNoFlag : Obligations.AddImmediateWritesNoFlag := by
  intro x kk s
  refine ⟨formatXK_toNat 0x7#4 x kk, _, exec_addKk x kk s, ?sum, ?others, s.advance_setV_frame x (s.getV x + kk)⟩
  case sum => rw [State.getV_setV_same, BitVec.toNat_add]
  case others => exact fun k hk => s.advance.getV_setV_other (s.getV x + kk) hk

/-- Settles O20: all three meanings end in `aluWrite` with the flag 0, which wins over the result at `v[15]`. -/
theorem logicResetsFlag : Obligations.LogicResetsFlag := by
  intro x y s
  refine ⟨formatXYN_toNat_opcode 0x8#4 x y 0x1#4, formatXYN_toNat_opcode 0x8#4 x y 0x2#4,
    formatXYN_toNat_opcode 0x8#4 x y 0x3#4, ?orVy, ?andVy, ?xorVy⟩
  case orVy => exact ⟨_, exec_orVy x y s, aluWrite_frame x _ 0#8 s, aluWrite_getV x _ 0#8 s⟩
  case andVy => exact ⟨_, exec_andVy x y s, aluWrite_frame x _ 0#8 s, aluWrite_getV x _ 0#8 s⟩
  case xorVy => exact ⟨_, exec_xorVy x y s, aluWrite_frame x _ 0#8 s, aluWrite_getV x _ 0#8 s⟩

end Machine

end Sys2Proof
end

section
/-! PROOFS. Index register and memory (spec/42_index_memory.md): the load of `i` with the 12-bit field (R140). -/

namespace Sys2Proof

namespace Machine

/-! ### What the instruction computes -/

theorem exec_ldI (nnn : Imm12) (s : State) : exec (.ldI nnn) s = .next (s.advance.setI (nnn.setWidth 16)) := rfl

/-- The advance and one write of the index register change `i` and `pc`, nothing else. -/
theorem State.advance_setI (s : State) (a : Word) : s.advance.setI a = { s with i := a, pc := s.pc + 2#16 } := rfl

/-! ### The obligation -/

/-- Settles O26: the word is format A with opcode A, and the meaning is the advance and one write of `i`. -/
theorem loadIndexRegister : Obligations.LoadIndexRegister := by
  intro nnn s
  constructor
  case left => exact formatA_toNat 0xA#4 nnn
  case right => rw [exec_ldI, State.advance_setI, BitVec.ofNat_toNat]

end Machine

end Sys2Proof
end

section
/-! PROOFS. Reset (spec/70_reset_and_hazards.md): the memory image (R241), first what the FONT write leaves, then what the
program write puts over it. -/

namespace Sys2Proof

namespace Machine

/-! ### The image -/

/-- Memory without cells is 0 from the end of the default font on (R241). -/
theorem Memory.read_nil_of_le {a : Nat} (h : 80 ≤ a) : Memory.read [] a = 0#8 :=
  List.getD_eq_default Config.fontBytes 0#8 h

/-- The FONT write puts glyph byte `a` at address `a`. -/
theorem Memory.read_writeFont_of_lt (font : Config.Font) {a : Nat} (h : a < 80) :
    (Memory.writeList [] 0 font.toList).read a = font[a] := by
  have hlen : font.toList.length = 80 := Vector.length_toList
  have hread := Memory.read_writeList_at (m := []) rfl (a := 0) (k := a) (bs := font.toList)
    (by rw [hlen]; decide) (by rwa [hlen])
  rwa [Nat.zero_add, Vector.getElem_toList] at hread

/-- The FONT write leaves 0 at every address from 80 on. -/
theorem Memory.read_writeFont_of_le (font : Config.Font) {a : Nat} (h : 80 ≤ a) :
    (Memory.writeList [] 0 font.toList).read a = 0#8 := by
  have hlen : font.toList.length = 80 := Vector.length_toList
  rw [Memory.read_writeList_other [] (.inr (by omega)), Memory.read_nil_of_le h]

/-- The FONT write keeps the canonical form. -/
theorem Memory.writeFont_wf (font : Config.Font) : (Memory.writeList [] 0 font.toList).wf = true :=
  Memory.writeList_wf rfl 0 font.toList

/-- Inside the program, cut at 3584 bytes (R242), the program write puts byte `a - 0x200` at address `a`. -/
theorem Memory.read_writeProgram_inside {m : Memory} (hm : m.wf = true) {rom : List Byte} {a : Nat} (hlo : 0x200 ≤ a)
    (hlt : a - 0x200 < min rom.length 3584) :
    (m.writeList Config.progBase (rom.take Config.romMax)).read a = rom.getD (a - 0x200) 0#8 := by
  obtain ⟨k, rfl⟩ := Nat.exists_eq_add_of_le hlo
  rw [Nat.add_sub_cancel_left] at hlt ⊢
  have hlen : (rom.take Config.romMax).length = min rom.length 3584 := by rw [List.length_take, Nat.min_comm]; rfl
  have hfits : Config.progBase + (rom.take Config.romMax).length ≤ Config.memSize := by
    rw [hlen]; exact Nat.add_le_add_left (Nat.min_le_right _ _) 0x200
  calc (m.writeList Config.progBase (rom.take Config.romMax)).read (0x200 + k)
    _ = (rom.take Config.romMax)[k]'(hlen ▸ hlt) := Memory.read_writeList_at hm hfits (hlen ▸ hlt)
    _ = rom[k]'(Nat.lt_of_lt_of_le hlt (Nat.min_le_left _ _)) := List.getElem_take
    _ = rom.getD k 0#8 := (List.getD_eq_getElem rom 0#8 _).symm

/-- Outside the program the program write changes no byte. -/
theorem Memory.read_writeProgram_outside (m : Memory) {rom : List Byte} {a : Nat}
    (h : ¬(0x200 ≤ a ∧ a - 0x200 < min rom.length 3584)) :
    (m.writeList Config.progBase (rom.take Config.romMax)).read a = m.read a := by
  refine m.read_writeList_other ?_
  simp only [List.length_take, Config.progBase, Config.romMax]
  omega

/-- The memory after `Reset`, whatever the state was: the FONT write and then the program write (R240, R241). -/
theorem State.doReset_mem (s : State) (mode : Mode) (rom : List Byte) (font : Config.Font) (strict : Bool) :
    (s.doReset mode rom font strict).mem =
      (Memory.writeList [] 0 font.toList).writeList Config.progBase (rom.take Config.romMax) := rfl

/-! ### The obligation -/

/-- Settles O47: the program is written at addresses from 0x200 on, so it leaves the font below 80 alone; elsewhere the byte
is the program's, or the 0 left by the FONT write. -/
theorem resetMemoryImage : Obligations.ResetMemoryImage := by
  intro s mode rom font strict a _
  rw [State.doReset_mem]
  split
  case isTrue hfont =>
    rw [Memory.read_writeProgram_outside _ (by omega), Memory.read_writeFont_of_lt font hfont]
  case isFalse hfont =>
    split
    case isTrue hprog => exact Memory.read_writeProgram_inside (Memory.writeFont_wf font) hprog.1 hprog.2
    case isFalse hprog =>
      rw [Memory.read_writeProgram_outside _ hprog, Memory.read_writeFont_of_le font (Nat.le_of_not_lt hfont)]

end Machine

end Sys2Proof
end

section
/-! PROOFS. Encoding (spec/30_encoding.md R60 to R66): decoding inverts encoding, and the rows of the opcode map are exactly
the encodings of their instructions. -/

namespace Sys2Proof

open Machine

/-! ### A word from its opcode and its fields -/

theorem fieldO_eq_of_toNat {w : Word} {o : BitVec 4} (h : (fieldO w).toNat = o.toNat) : fieldO w = o :=
  BitVec.eq_of_toNat_eq h

theorem formatA_of_fieldO {w : Word} {o : BitVec 4} (h : fieldO w = o) : formatA o (fieldNnn w) = w :=
  h ▸ formatA_fields w

theorem formatXK_of_fieldO {w : Word} {o : BitVec 4} (h : fieldO w = o) : formatXK o (fieldX w) (fieldKk w) = w :=
  h ▸ formatXK_fields w

theorem formatXYN_of_fieldO {w : Word} {o : BitVec 4} (h : fieldO w = o) :
    formatXYN o (fieldX w) (fieldY w) (fieldN w) = w :=
  h ▸ formatXYN_fields w

/-! ### What the second-level decoders accept -/

theorem encode_of_decodeSys {nnn : Imm12} {i : Instr} (h : decodeSys nnn = .ok i) : encode i = formatA 0x0#4 nnn := by
  unfold decodeSys at h
  split at h
  · next e => subst e; cases h; rfl
  · split at h
    · next e => subst e; cases h; rfl
    · cases h

theorem encode_of_decodeAlu {x y : RegIdx} {n : Imm4} {i : Instr} (h : decodeAlu x y n = .ok i) :
    encode i = formatXYN 0x8#4 x y n := by
  unfold decodeAlu at h
  split at h
  case h_10 => cases h
  all_goals
    next e =>
    cases h
    exact congrArg (formatXYN 0x8#4 x y) (BitVec.eq_of_toNat_eq e.symm)

theorem encode_of_decodeKey {x : RegIdx} {kk : Byte} {i : Instr} (h : decodeKey x kk = .ok i) :
    encode i = formatXK 0xE#4 x kk := by
  unfold decodeKey at h
  split at h
  · next e => subst e; cases h; rfl
  · split at h
    · next e => subst e; cases h; rfl
    · cases h

theorem encode_of_decodeMisc {x : RegIdx} {kk : Byte} {i : Instr} (h : decodeMisc x kk = .ok i) :
    encode i = formatXK 0xF#4 x kk := by
  unfold decodeMisc at h
  repeat' split at h
  all_goals cases h
  all_goals next e => subst e; rfl

/-! ### The two directions of the round trip -/

/-- A word that decodes is the encoding of what it decodes to (R64, R65). -/
theorem encode_of_decodeWord {w : Word} {i : Instr} (h : decodeWord w = .ok i) : encode i = w := by
  unfold decodeWord at h
  split at h
  case h_1 e => rw [encode_of_decodeSys h, formatA_of_fieldO (fieldO_eq_of_toNat (o := 0x0#4) e)]
  case h_2 e => cases h; exact formatA_of_fieldO (fieldO_eq_of_toNat e)
  case h_3 e => cases h; exact formatA_of_fieldO (fieldO_eq_of_toNat e)
  case h_4 e => cases h; exact formatXK_of_fieldO (fieldO_eq_of_toNat e)
  case h_5 e => cases h; exact formatXK_of_fieldO (fieldO_eq_of_toNat e)
  case h_6 e =>
    dsimp only at h
    split at h <;> cases h
    next hn => rw [encode, ← hn, formatXYN_of_fieldO (fieldO_eq_of_toNat (o := 0x5#4) e)]
  case h_7 e => cases h; exact formatXK_of_fieldO (fieldO_eq_of_toNat e)
  case h_8 e => cases h; exact formatXK_of_fieldO (fieldO_eq_of_toNat e)
  case h_9 e => rw [encode_of_decodeAlu h, formatXYN_of_fieldO (fieldO_eq_of_toNat (o := 0x8#4) e)]
  case h_10 e =>
    dsimp only at h
    split at h <;> cases h
    next hn => rw [encode, ← hn, formatXYN_of_fieldO (fieldO_eq_of_toNat (o := 0x9#4) e)]
  case h_11 e => cases h; exact formatA_of_fieldO (fieldO_eq_of_toNat e)
  case h_12 e => cases h; exact formatA_of_fieldO (fieldO_eq_of_toNat e)
  case h_13 e => cases h; exact formatXK_of_fieldO (fieldO_eq_of_toNat e)
  case h_14 e => cases h; exact formatXYN_of_fieldO (fieldO_eq_of_toNat e)
  case h_15 e => rw [encode_of_decodeKey h, formatXK_of_fieldO (fieldO_eq_of_toNat (o := 0xE#4) e)]
  case h_16 =>
    have e : (fieldO w).toNat = (0xF#4).toNat := by
      have := (fieldO w).isLt
      simp only [imp_false] at *
      show (fieldO w).toNat = 15
      omega
    rw [encode_of_decodeMisc h, formatXK_of_fieldO (fieldO_eq_of_toNat e)]

/-- The encoding of every instruction decodes to it (R64, R65). -/
theorem decodeWord_encode (i : Instr) : decodeWord (encode i) = .ok i := by
  cases i with
  | cls => decide
  | ret => decide
  | _ => simp [encode, decodeWord, decodeAlu, decodeKey, decodeMisc]

theorem decodeWord_eq_ok {w : Word} {i : Instr} : decodeWord w = .ok i ↔ encode i = w :=
  ⟨encode_of_decodeWord, fun h => h ▸ decodeWord_encode i⟩

/-- Settles O1: the round trip on words, and the two bytes of an encoding put together give its word again. -/
theorem decodeInvertsEncode : Obligations.DecodeInvertsEncode := by
  refine ⟨fun w i => decodeWord_eq_ok, fun i rest => ?_⟩
  simp only [encodeBytes, List.cons_append, List.nil_append, decodeBytes, wordOfBytes_high_low, decodeWord_encode]

/-! ### The rows of the opcode map -/

/-- A mask that keeps the opcode nibble alone determines it. -/
theorem fieldO_of_masked {w : Word} {o : BitVec 4} (h : w &&& 0xF000#16 = formatA o 0#12) : fieldO w = o := by
  rw [← formatA_fields w, formatA_masked] at h
  simpa using congrArg fieldO h

theorem formatA_of_masked {w : Word} {o : BitVec 4} (h : w &&& 0xF000#16 = formatA o 0#12) :
    formatA o (fieldNnn w) = w :=
  formatA_of_fieldO (fieldO_of_masked h)

theorem formatXK_of_masked {w : Word} {o : BitVec 4} (h : w &&& 0xF000#16 = formatA o 0#12) :
    formatXK o (fieldX w) (fieldKk w) = w :=
  formatXK_of_fieldO (fieldO_of_masked h)

theorem formatXYN_of_masked {w : Word} {o : BitVec 4} (h : w &&& 0xF000#16 = formatA o 0#12) :
    formatXYN o (fieldX w) (fieldY w) (fieldN w) = w :=
  formatXYN_of_fieldO (fieldO_of_masked h)

/-- A mask that keeps the opcode nibble and the low nibble determines both. -/
theorem formatXYN_of_masked_sub {w : Word} {o n : BitVec 4} (h : w &&& 0xF00F#16 = formatXYN o 0#4 0#4 n) :
    formatXYN o (fieldX w) (fieldY w) n = w := by
  have hw := formatXYN_fields w
  rw [← hw, formatXYN_masked_sub] at h
  have ho : fieldO w = o := by simpa using congrArg fieldO h
  have hn : fieldN w = n := by simpa using congrArg fieldN h
  rwa [ho, hn] at hw

/-- A mask that keeps the opcode nibble and the low byte determines both. -/
theorem formatXK_of_masked_sub {w : Word} {o : BitVec 4} {kk : Byte} (h : w &&& 0xF0FF#16 = formatXK o 0#4 kk) :
    formatXK o (fieldX w) kk = w := by
  have hw := formatXK_fields w
  rw [← hw, formatXK_masked_sub] at h
  have ho : fieldO w = o := by simpa using congrArg fieldO h
  have hk : fieldKk w = kk := by simpa using congrArg fieldKk h
  rwa [ho, hk] at hw

theorem eq_of_masked_all {w m : Word} (h : w &&& 0xFFFF#16 = m) : m = w := by
  rw [← h, show 0xFFFF#16 = BitVec.allOnes 16 from rfl, BitVec.and_allOnes]

/-- A word that selects a row of the opcode map is the encoding of an instruction of that row (R65). -/
theorem exists_encode_of_selects {r : OpcodeRow} {w : Word} (hr : r ∈ opcodeTable) (hs : r.selects w = true) :
    ∃ i : Instr, i.row = r ∧ encode i = w := by
  have h : w &&& r.mask = r.matchBits := eq_of_beq hs
  simp only [opcodeTable, List.cons_append, List.nil_append, List.mem_cons, List.not_mem_nil, or_false] at hr
  rcases hr with rfl | rfl | rfl | rfl | rfl | rfl | rfl | rfl | rfl | rfl | rfl | rfl | rfl | rfl | rfl | rfl | rfl |
    rfl | rfl | rfl | rfl | rfl | rfl | rfl | rfl | rfl | rfl | rfl | rfl | rfl | rfl | rfl | rfl | rfl
  · exact ⟨.cls, rfl, eq_of_masked_all h⟩
  · exact ⟨.ret, rfl, eq_of_masked_all h⟩
  · exact ⟨.jp _, rfl, formatA_of_masked h⟩
  · exact ⟨.call _, rfl, formatA_of_masked h⟩
  · exact ⟨.seKk _ _, rfl, formatXK_of_masked h⟩
  · exact ⟨.sneKk _ _, rfl, formatXK_of_masked h⟩
  · exact ⟨.seVy _ _, rfl, formatXYN_of_masked_sub h⟩
  · exact ⟨.ldKk _ _, rfl, formatXK_of_masked h⟩
  · exact ⟨.addKk _ _, rfl, formatXK_of_masked h⟩
  · exact ⟨.ldVy _ _, rfl, formatXYN_of_masked_sub h⟩
  · exact ⟨.orVy _ _, rfl, formatXYN_of_masked_sub h⟩
  · exact ⟨.andVy _ _, rfl, formatXYN_of_masked_sub h⟩
  · exact ⟨.xorVy _ _, rfl, formatXYN_of_masked_sub h⟩
  · exact ⟨.addVy _ _, rfl, formatXYN_of_masked_sub h⟩
  · exact ⟨.subVy _ _, rfl, formatXYN_of_masked_sub h⟩
  · exact ⟨.shrVy _ _, rfl, formatXYN_of_masked_sub h⟩
  · exact ⟨.subnVy _ _, rfl, formatXYN_of_masked_sub h⟩
  · exact ⟨.shlVy _ _, rfl, formatXYN_of_masked_sub h⟩
  · exact ⟨.sneVy _ _, rfl, formatXYN_of_masked_sub h⟩
  · exact ⟨.ldI _, rfl, formatA_of_masked h⟩
  · exact ⟨.jpV0 _, rfl, formatA_of_masked h⟩
  · exact ⟨.rnd _ _, rfl, formatXK_of_masked h⟩
  · exact ⟨.drw _ _ _, rfl, formatXYN_of_masked h⟩
  · exact ⟨.skp _, rfl, formatXK_of_masked_sub h⟩
  · exact ⟨.sknp _, rfl, formatXK_of_masked_sub h⟩
  · exact ⟨.ldVxDt _, rfl, formatXK_of_masked_sub h⟩
  · exact ⟨.ldVxK _, rfl, formatXK_of_masked_sub h⟩
  · exact ⟨.ldDtVx _, rfl, formatXK_of_masked_sub h⟩
  · exact ⟨.ldStVx _, rfl, formatXK_of_masked_sub h⟩
  · exact ⟨.addIVx _, rfl, formatXK_of_masked_sub h⟩
  · exact ⟨.ldFVx _, rfl, formatXK_of_masked_sub h⟩
  · exact ⟨.ldBVx _, rfl, formatXK_of_masked_sub h⟩
  · exact ⟨.ldMemVx _, rfl, formatXK_of_masked_sub h⟩
  · exact ⟨.ldVxMem _, rfl, formatXK_of_masked_sub h⟩

/-- The encoding of every instruction selects the instruction's own row (R65). -/
theorem row_selects_encode (i : Instr) : i.row.selects (encode i) = true := by
  cases i with
  | cls => exact Laws.EncodingRow.cls.2
  | ret => exact Laws.EncodingRow.ret.2
  | jp nnn => exact (Laws.EncodingRow.jp nnn).2
  | call nnn => exact (Laws.EncodingRow.call nnn).2
  | seKk x kk => exact (Laws.EncodingRow.seKk x kk).2
  | sneKk x kk => exact (Laws.EncodingRow.sneKk x kk).2
  | seVy x y => exact (Laws.EncodingRow.seVy x y).2
  | ldKk x kk => exact (Laws.EncodingRow.ldKk x kk).2
  | addKk x kk => exact (Laws.EncodingRow.addKk x kk).2
  | ldVy x y => exact (Laws.EncodingRow.ldVy x y).2
  | orVy x y => exact (Laws.EncodingRow.orVy x y).2
  | andVy x y => exact (Laws.EncodingRow.andVy x y).2
  | xorVy x y => exact (Laws.EncodingRow.xorVy x y).2
  | addVy x y => exact (Laws.EncodingRow.addVy x y).2
  | subVy x y => exact (Laws.EncodingRow.subVy x y).2
  | shrVy x y => exact (Laws.EncodingRow.shrVy x y).2
  | subnVy x y => exact (Laws.EncodingRow.subnVy x y).2
  | shlVy x y => exact (Laws.EncodingRow.shlVy x y).2
  | sneVy x y => exact (Laws.EncodingRow.sneVy x y).2
  | ldI nnn => exact (Laws.EncodingRow.ldI nnn).2
  | jpV0 nnn => exact (Laws.EncodingRow.jpV0 nnn).2
  | rnd x kk => exact (Laws.EncodingRow.rnd x kk).2
  | drw x y n => exact (Laws.EncodingRow.drw x y n).2
  | skp x => exact (Laws.EncodingRow.skp x).2
  | sknp x => exact (Laws.EncodingRow.sknp x).2
  | ldVxDt x => exact (Laws.EncodingRow.ldVxDt x).2
  | ldVxK x => exact (Laws.EncodingRow.ldVxK x).2
  | ldDtVx x => exact (Laws.EncodingRow.ldDtVx x).2
  | ldStVx x => exact (Laws.EncodingRow.ldStVx x).2
  | addIVx x => exact (Laws.EncodingRow.addIVx x).2
  | ldFVx x => exact (Laws.EncodingRow.ldFVx x).2
  | ldBVx x => exact (Laws.EncodingRow.ldBVx x).2
  | ldMemVx x => exact (Laws.EncodingRow.ldMemVx x).2
  | ldVxMem x => exact (Laws.EncodingRow.ldVxMem x).2

theorem row_selects_of_decodeWord {w : Word} {i : Instr} (h : decodeWord w = .ok i) : i.row.selects w = true :=
  encode_of_decodeWord h ▸ row_selects_encode i

theorem wordDefined_iff {w : Word} : wordDefined w = true ↔ ∃ r ∈ opcodeTable, r.selects w = true :=
  List.any_eq_true

theorem wordDefined_iff_exists_decodeWord {w : Word} : wordDefined w = true ↔ ∃ i, decodeWord w = .ok i := by
  rw [wordDefined_iff]
  constructor
  · rintro ⟨r, hr, hs⟩
    obtain ⟨i, -, e⟩ := exists_encode_of_selects hr hs
    exact ⟨i, decodeWord_eq_ok.mpr e⟩
  · rintro ⟨i, h⟩
    exact ⟨i.row, Laws.EncodingRow.row_mem i, row_selects_of_decodeWord h⟩

/-- An undefined word is one the decoder rejects (R66). -/
theorem wordDefined_eq_false_iff {w : Word} : wordDefined w = false ↔ ∃ r, decodeWord w = .error r := by
  rw [← Bool.not_eq_true, wordDefined_iff_exists_decodeWord]
  cases decodeWord w <;> simp

/-! ### The obligations -/

/-- Settles O2: a word of a row is an encoding, so it decodes; and an instruction's encoding selects its own row. -/
theorem decodeAcceptsExactlyTheTable : Obligations.DecodeAcceptsExactlyTheTable :=
  fun _ => ⟨wordDefined_iff_exists_decodeWord.symm, fun _ => row_selects_of_decodeWord⟩

/-- Settles O3: the word is the encoding of an instruction of either row, and it decodes to one instruction only. -/
theorem opcodeRowsDisjoint : Obligations.OpcodeRowsDisjoint := by
  intro w r r' hr hr' hs hs'
  obtain ⟨i, rfl, e⟩ := exists_encode_of_selects hr hs
  obtain ⟨i', rfl, e'⟩ := exists_encode_of_selects hr' hs'
  have hi : Except.ok i = (Except.ok i' : Except DecodeReject Instr) :=
    (decodeWord_eq_ok.mpr e).symm.trans (decodeWord_eq_ok.mpr e')
  cases hi
  rfl

/-- Settles O4: the decoder evaluated on the eight words. -/
theorem sampleWordsDecode : Obligations.SampleWordsDecode := by
  unfold Obligations.SampleWordsDecode
  decide

end Sys2Proof
end

section
/-! PROOFS. What the instructions compute, one equation per instruction and case, written as the state with the fields that
change (spec/40_control_flow.md to spec/44_keys_timers_random.md); the equations of the sections before stand there. -/

namespace Sys2Proof

namespace Machine

/-! ### The shared ends -/

/-- A skip is one write of `pc` (R103 to R106, R171, R172). -/
theorem State.skipIf_eq (s : State) (taken : Bool) :
    s.skipIf taken = { s with pc := if taken then s.pc + 4#16 else s.pc + 2#16 } := by
  cases taken <;> rfl

theorem withRange_of_inRange {len : Nat} {s : State} (h : len = 0 ∨ s.i.toNat + len ≤ 4096) (e : State) :
    withRange len s e = .next e := by
  rw [withRange, if_pos (inRange_eq_true.mpr h)]

theorem withRange_of_outOfRange {len : Nat} {s : State} (hlen : len ≠ 0) (h : 4096 < s.i.toNat + len) (e : State) :
    withRange len s e = .next (raise .memOutOfRange s.i s) := by
  rw [withRange, inRange_eq_false.mpr ⟨hlen, h⟩]
  rfl

/-! ### Control transfer -/

theorem exec_ret_of_pos {s : State} (h : 0 < s.sp.val) :
    exec .ret s = .next { s with pc := s.stack[s.sp.val - 1]'(by omega), sp := ⟨s.sp.val - 1, by omega⟩ } := by
  simp only [exec, execRet, s.pop_of_pos h]
  rfl

theorem exec_ret_empty {s : State} (h : ¬ 0 < s.sp.val) : exec .ret s = .next (raise .stackUnderflow 0#16 s) := by
  simp only [exec, execRet, s.pop_empty h]

theorem exec_call_of_lt (nnn : Imm12) {s : State} (h : s.sp.val < 16) :
    exec (.call nnn) s = .next { s with pc := nnn.setWidth 16, sp := ⟨s.sp.val + 1, by omega⟩,
                                        stack := s.stack.set s.sp.val (s.pc + 2#16) h } := by
  simp only [exec, execCall, s.push_of_lt (s.pc + 2#16) h]
  rfl

theorem exec_call_full (nnn : Imm12) {s : State} (h : ¬ s.sp.val < 16) :
    exec (.call nnn) s = .next (raise .stackOverflow 16#16 s) := by
  simp only [exec, execCall, s.push_full (s.pc + 2#16) h]

theorem exec_seVy (x y : RegIdx) (s : State) :
    exec (.seVy x y) s = .next (s.skipIf (decide (s.getV x = s.getV y))) := rfl

theorem exec_sneVy (x y : RegIdx) (s : State) :
    exec (.sneVy x y) s = .next (s.skipIf (decide (s.getV x ≠ s.getV y))) := rfl

theorem exec_jpV0 (nnn : Imm12) (s : State) :
    exec (.jpV0 nnn) s =
      .next { s with pc := nnn.setWidth 16 + (s.getV (jumpOffsetReg s.mode nnn)).setWidth 16 } := rfl

/-! ### ALU -/

theorem exec_addVy (x y : RegIdx) (s : State) : exec (.addVy x y) s =
    .next (aluWrite x (s.getV x + s.getV y) (flagByte (carryOut (s.getV x) (s.getV y))) s) := rfl

theorem exec_subVy (x y : RegIdx) (s : State) : exec (.subVy x y) s =
    .next (aluWrite x (s.getV x - s.getV y) (flagByte (noBorrow (s.getV x) (s.getV y))) s) := rfl

theorem exec_subnVy (x y : RegIdx) (s : State) : exec (.subnVy x y) s =
    .next (aluWrite x (s.getV y - s.getV x) (flagByte (noBorrow (s.getV y) (s.getV x))) s) := rfl

theorem exec_shrVy (x y : RegIdx) (s : State) : exec (.shrVy x y) s =
    .next (aluWrite x (s.shiftOperand x y >>> 1) (flagByte (bitOutRight (s.shiftOperand x y))) s) := rfl

theorem exec_shlVy (x y : RegIdx) (s : State) : exec (.shlVy x y) s =
    .next (aluWrite x (s.shiftOperand x y <<< 1) (flagByte (bitOutLeft (s.shiftOperand x y))) s) := rfl

/-! ### Index register and memory -/

theorem exec_addIVx (x : RegIdx) (s : State) :
    exec (.addIVx x) s = .next { s with i := s.i + (s.getV x).setWidth 16, pc := s.pc + 2#16 } := rfl

theorem exec_ldFVx (x : RegIdx) (s : State) :
    exec (.ldFVx x) s = .next { s with i := BitVec.ofNat 16 (5 * (s.getV x).toNat), pc := s.pc + 2#16 } := rfl

theorem exec_ldBVx (x : RegIdx) (s : State) : exec (.ldBVx x) s =
    withRange 3 s { s with mem := s.mem.writeList s.i.toNat (decimalDigits (s.getV x)), pc := s.pc + 2#16 } := rfl

theorem exec_ldMemVx (x : RegIdx) (s : State) : exec (.ldMemVx x) s =
    withRange (x.toNat + 1) s { s with mem := s.mem.writeList s.i.toNat (s.firstRegs (x.toNat + 1)),
                                       i := s.nextIndex x, pc := s.pc + 2#16 } := rfl

theorem exec_ldVxMem (x : RegIdx) (s : State) : exec (.ldVxMem x) s =
    withRange (x.toNat + 1) s { s with v := loadRegs s.mem s.i.toNat (x.toNat + 1) s.v,
                                       i := s.nextIndex x, pc := s.pc + 2#16 } := rfl

/-! ### Framebuffer -/

theorem exec_cls (s : State) :
    exec .cls s = .next { s with fb := Framebuffer.clear, drawPending := true, pc := s.pc + 2#16 } := rfl

/-- The state after `Dxyn` in range (R161). -/
def State.drawn (s : State) (x y : RegIdx) (n : Imm4) : State :=
  { s with fb := (drawResult x y n s).1, drawPending := true, pc := s.pc + 2#16 }.setFlag
    (flagByte (drawResult x y n s).2)

theorem exec_drw (x y : RegIdx) (n : Imm4) (s : State) :
    exec (.drw x y n) s = withRange n.toNat s (s.drawn x y n) := rfl

/-! ### Random, keys, timers -/

theorem exec_rnd (x : RegIdx) (kk : Byte) (s : State) : exec (.rnd x kk) s =
    .next { s.advance.setV x (Config.rndByte s.rndCount &&& kk) with rndCount := s.rndCount + 1 } := rfl

theorem exec_skp (x : RegIdx) (s : State) : exec (.skp x) s = skipOnKey x true s := rfl

theorem exec_sknp (x : RegIdx) (s : State) : exec (.sknp x) s = skipOnKey x false s := rfl

theorem skipOnKey_of_le {x : RegIdx} {s : State} (h : (s.getV x).toNat ≤ 15) (wanted : Bool) :
    skipOnKey x wanted s = .next (s.skipIf (s.keyHeld (s.getV x).toNat == wanted)) := by
  rw [skipOnKey, if_pos h]

theorem skipOnKey_of_gt {x : RegIdx} {s : State} (h : 15 < (s.getV x).toNat) (wanted : Bool) :
    skipOnKey x wanted s = .next (raise .keyIndexOutOfRange ((s.getV x).setWidth 16) s) := by
  rw [skipOnKey, if_neg (Nat.not_le.mpr h)]

theorem exec_ldVxDt (x : RegIdx) (s : State) : exec (.ldVxDt x) s = .next (s.advance.setV x s.dt) := rfl

theorem exec_ldDtVx (x : RegIdx) (s : State) :
    exec (.ldDtVx x) s = .next { s with dt := s.getV x, pc := s.pc + 2#16 } := rfl

theorem exec_ldStVx (x : RegIdx) (s : State) :
    exec (.ldStVx x) s = .next { s with st := s.getV x, pc := s.pc + 2#16 } := rfl

/-- The advance and the rewind of the key wait cancel (R174). -/
theorem exec_ldVxK_none (x : RegIdx) {s : State} (h : s.lowestKey = none) : exec (.ldVxK x) s = .next s := by
  simp only [exec, execLdVxK, h, State.advance, State.setPc, BitVec.add_sub_cancel]

theorem exec_ldVxK_some (x : RegIdx) {s : State} {k : Nat} (h : s.lowestKey = some k) :
    exec (.ldVxK x) s = .next (s.advance.setV x (BitVec.ofNat 8 k)) := by
  simp only [exec, execLdVxK, h]

end Machine

end Sys2Proof
end

section
/-! PROOFS. Control flow (spec/40_control_flow.md): call and return (R100, R102), the skips on registers (R105, R106), the
jump with offset (R107), and the stack's two limits (R204, R205). -/

namespace Sys2Proof

namespace Machine

/-- Settles O11: with room, a call is one write each of the entry `sp` indexes, of `sp` and of `pc`. -/
theorem callPushesReturnAddress : Obligations.CallPushesReturnAddress := by
  intro nnn s h
  refine ⟨_, exec_call_of_lt nnn h, (BitVec.ofNat_toNat 16 nnn).symm, rfl, Vector.getElem_set_self h, ?_, rfl⟩
  exact fun k hk => Vector.getElem_set_ne h k.isLt (Ne.symm hk)

/-- Settles O12: with a live entry, a return is one write each of `sp` and of `pc`. -/
theorem returnPopsPc : Obligations.ReturnPopsPc := by
  intro s h
  refine ⟨_, exec_ret_of_pos h, rfl, fun k hk => ?_, rfl⟩
  exact getElem_congr_idx hk.symm

/-- Settles O13: the two limits leave only the fault entry. -/
theorem stackLimitsFault : Obligations.StackLimitsFault := by
  refine ⟨rfl, rfl, fun nnn s h => ?_, fun s h => ?_⟩
  · exact exec_call_full nnn (by rw [h]; decide)
  · exact exec_ret_empty (by rw [h]; decide)

/-- Settles O14: the call leaves the return address in the entry below the new `sp`, where the return reads it. -/
theorem returnAfterCall : Obligations.ReturnAfterCall := by
  intro nnn s t u h ht hsp hstack
  obtain rfl := Host.Outcome.next.inj ((exec_call_of_lt nnn h).symm.trans ht)
  have husp : u.sp.val = s.sp.val + 1 := congrArg Fin.val hsp
  refine ⟨_, exec_ret_of_pos (by omega), ?pc, ?sp⟩
  case pc => simp [husp, hstack]
  case sp => exact Fin.ext (by simp [husp])

/-- Settles O16: both words are format XYN with low nibble 0, and both meanings are the one skip. -/
theorem skipOnRegister : Obligations.SkipOnRegister := by
  intro x y s
  refine ⟨formatXYN_toNat 0x5#4 x y 0x0#4, formatXYN_toNat 0x9#4 x y 0x0#4, ?seVy, ?sneVy⟩
  case seVy => rw [exec_seVy, State.skipIf_decide]
  case sneVy => rw [exec_sneVy, State.skipIf_decide, ite_not]

/-- The sum of a 12-bit field and a register in 16 bits. -/
theorem setWidth_add_setWidth (nnn : Imm12) (b : Byte) :
    nnn.setWidth 16 + b.setWidth 16 = BitVec.ofNat 16 (nnn.toNat + b.toNat) := by
  rw [BitVec.ofNat_add, BitVec.ofNat_toNat, BitVec.ofNat_toNat]

/-- The register `Bnnn` adds in CHIP-48 mode, as the number of the field's top nibble (R62). -/
theorem jumpOffsetReg_chip48 (nnn : Imm12) : jumpOffsetReg .chip48 nnn = BitVec.ofNat 4 (nnn.toNat / 256) := by
  show BitVec.ofNat 4 (nnn.toNat >>> 8) = _
  rw [Nat.shiftRight_eq_div_pow]

/-- Settles O17: the mode selects the register, and the sum is the same in both modes. -/
theorem jumpWithOffset : Obligations.JumpWithOffset := by
  intro nnn s
  constructor
  case left =>
    intro hm
    rw [exec_jpV0, hm, setWidth_add_setWidth]
    rfl
  case right =>
    intro hm
    rw [exec_jpV0, hm, setWidth_add_setWidth, jumpOffsetReg_chip48]

end Machine

end Sys2Proof
end

section
/-! PROOFS. Flag-writing ALU instructions (spec/41_load_alu.md): sum and carry (R126), difference and no borrow (R127, R129),
the shifts (R128, R130). All end in `aluWrite`; what remains is their result and their flag as numbers. -/

namespace Sys2Proof

namespace Machine

theorem flagByte_decide (p : Prop) [Decidable p] : flagByte (decide p) = if p then 1#8 else 0#8 := by
  simp only [flagByte, decide_eq_true_eq]

theorem add_eq_ofNat (a b : Byte) : a + b = BitVec.ofNat 8 (a.toNat + b.toNat) := by
  rw [BitVec.ofNat_add, BitVec.ofNat_toNat, BitVec.ofNat_toNat, BitVec.setWidth_eq, BitVec.setWidth_eq]

theorem sub_eq_ofNat (a b : Byte) : a - b = BitVec.ofNat 8 (256 + a.toNat - b.toNat) := by
  apply BitVec.eq_of_toNat_eq
  rw [BitVec.toNat_sub, BitVec.toNat_ofNat, Nat.sub_add_comm (by omega)]

theorem ushiftRight_one_eq_ofNat (a : Byte) : a >>> 1 = BitVec.ofNat 8 (a.toNat / 2) := by
  apply BitVec.eq_of_toNat_eq
  rw [BitVec.toNat_ushiftRight, BitVec.toNat_ofNat, Nat.shiftRight_one]
  omega

theorem shiftLeft_one_eq_ofNat (a : Byte) : a <<< 1 = BitVec.ofNat 8 (a.toNat * 2) := by
  apply BitVec.eq_of_toNat_eq
  rw [BitVec.toNat_shiftLeft, BitVec.toNat_ofNat, Nat.shiftLeft_eq, pow_one]

/-- The bit shifted out to the right is the parity (R128). -/
theorem flagByte_bitOutRight (a : Byte) : flagByte (bitOutRight a) = BitVec.ofNat 8 (a.toNat % 2) := by
  rw [bitOutRight, BitVec.getLsbD, Nat.testBit_zero, flagByte_decide]
  rcases Nat.mod_two_eq_zero_or_one a.toNat with e | e <;> rw [e] <;> rfl

/-- The bit shifted out to the left is the half the value lies in (R130). -/
theorem flagByte_bitOutLeft (a : Byte) : flagByte (bitOutLeft a) = BitVec.ofNat 8 (a.toNat / 128) := by
  have hlt := a.isLt
  rw [bitOutLeft, BitVec.getLsbD, Nat.testBit_eq_decide_div_mod_eq, flagByte_decide]
  obtain e | e : a.toNat / 2 ^ 7 = 0 ∨ a.toNat / 2 ^ 7 = 1 := by omega
  all_goals
    rw [show 128 = 2 ^ 7 from rfl, e]
    rfl

/-- Settles O21: the sum and its carry through `aluWrite`. -/
theorem addSetsCarry : Obligations.AddSetsCarry := by
  intro x y s
  refine ⟨_, exec_addVy x y s, aluWrite_frame x _ _ s, fun k => ?_⟩
  rw [aluWrite_getV, carryOut, flagByte_decide, add_eq_ofNat]
  rfl

/-- Settles O22: both differences and their no-borrow flags through `aluWrite`. -/
theorem subtractSetsNoBorrow : Obligations.SubtractSetsNoBorrow := by
  intro x y s
  refine ⟨⟨_, exec_subVy x y s, aluWrite_frame x _ _ s, fun k => ?_⟩,
    ⟨_, exec_subnVy x y s, aluWrite_frame x _ _ s, fun k => ?_⟩⟩
  all_goals
    rw [aluWrite_getV, noBorrow, flagByte_decide, sub_eq_ofNat]
    rfl

/-- The operand of the shifts, by mode (R128, R130). -/
theorem State.shiftOperand_eq {s : State} {x y : RegIdx} {a : Byte}
    (h : (s.mode = .chip8 ∧ a = s.getV y) ∨ (s.mode = .chip48 ∧ a = s.getV x)) : s.shiftOperand x y = a := by
  obtain ⟨hm, rfl⟩ | ⟨hm, rfl⟩ := h <;> rw [State.shiftOperand, hm]

/-- Settles O23: the mode selects the operand; its half and its parity go through `aluWrite`. -/
theorem shiftRightByMode : Obligations.ShiftRightByMode := by
  intro x y s a h
  refine ⟨_, exec_shrVy x y s, aluWrite_frame x _ _ s, fun k => ?_⟩
  rw [State.shiftOperand_eq h, aluWrite_getV, flagByte_bitOutRight, ushiftRight_one_eq_ofNat]
  rfl

/-- Settles O24: the mode selects the operand; its double and its bit 7 go through `aluWrite`. -/
theorem shiftLeftByMode : Obligations.ShiftLeftByMode := by
  intro x y s a h
  refine ⟨_, exec_shlVy x y s, aluWrite_frame x _ _ s, fun k => ?_⟩
  rw [State.shiftOperand_eq h, aluWrite_getV, flagByte_bitOutLeft, shiftLeft_one_eq_ofNat]
  rfl

end Machine

end Sys2Proof
end

section
/-! PROOFS. Index register and memory (spec/42_index_memory.md R141 to R145) and the range fault (R203). -/

namespace Sys2Proof

namespace Machine

/-! ### The index register -/

/-- Settles O27: the sum in 16 bits is the sum modulo 65536. -/
theorem addToIndexRegister : Obligations.AddToIndexRegister := by
  intro x s
  rw [exec_addIVx, BitVec.ofNat_add, BitVec.ofNat_toNat, BitVec.ofNat_toNat, BitVec.setWidth_eq]

/-- Settles O28: the meaning is the advance and one write of `i`. -/
theorem glyphAddress : Obligations.GlyphAddress := exec_ldFVx

/-- `i` after a store or a load of registers, when the addresses fit (R144, R145). -/
theorem State.nextIndex_toNat {s : State} {x : RegIdx} (h : s.i.toNat + x.toNat ≤ 4095) :
    (s.mode = .chip8 → (s.nextIndex x).toNat = s.i.toNat + x.toNat + 1) ∧
    (s.mode = .chip48 → (s.nextIndex x).toNat = s.i.toNat + x.toNat) := by
  have hx := x.isLt
  constructor
  all_goals
    intro hm
    simp only [State.nextIndex, hm, indexAdvance, BitVec.toNat_add, BitVec.toNat_ofNat]
    omega

/-! ### Stores and loads -/

/-- Byte `k` of a stored list of registers is register `k` (R144). -/
theorem State.read_writeList_firstRegs {s : State} (hm : s.mem.wf = true) {x k : RegIdx}
    (h : s.i.toNat + x.toNat ≤ 4095) (hk : k.toNat ≤ x.toNat) :
    (s.mem.writeList s.i.toNat (s.firstRegs (x.toNat + 1))).read (s.i.toNat + k.toNat) = s.getV k := by
  have hlen := s.length_firstRegs (n := x.toNat + 1) x.isLt
  have hk' : k.toNat < (s.firstRegs (x.toNat + 1)).length := by omega
  rw [Memory.read_writeList_at hm (by rw [hlen]; exact Nat.succ_le_succ h) hk', s.getElem_firstRegs hk' k.isLt]
  rfl

/-- Settles O29: the three digits are one list of writes at `i`, which reads back and leaves the other bytes alone. -/
theorem storeDecimalDigits : Obligations.StoreDecimalDigits := by
  intro x s hm h
  have hlt := (s.getV x).isLt
  have hread : ∀ k (hk : k < 3),
      (s.mem.writeList s.i.toNat (decimalDigits (s.getV x))).read (s.i.toNat + k) = (decimalDigits (s.getV x))[k]'hk :=
    fun k hk => Memory.read_writeList_at hm (Nat.succ_le_succ h) hk
  refine ⟨_, (exec_ldBVx x s).trans (withRange_of_inRange (.inr (by omega)) _), ?hundreds, ?tens, ?ones, ?others, rfl⟩
  case hundreds =>
    refine (congrArg BitVec.toNat (hread 0 (by decide))).trans (Nat.mod_eq_of_lt ?_)
    omega
  case tens =>
    refine (congrArg BitVec.toNat (hread 1 (by decide))).trans (Nat.mod_eq_of_lt ?_)
    omega
  case ones =>
    refine (congrArg BitVec.toNat (hread 2 (by decide))).trans (Nat.mod_eq_of_lt ?_)
    omega
  case others => exact fun a ha => Memory.read_writeList_other _ ha

/-- Settles O30: the registers are one list of writes at `i`, which reads back and leaves the other bytes alone. -/
theorem storeRegisters : Obligations.StoreRegisters := by
  intro x s hm h
  have hlen := s.length_firstRegs (n := x.toNat + 1) x.isLt
  obtain ⟨h8, h48⟩ := State.nextIndex_toNat h
  refine ⟨_, (exec_ldMemVx x s).trans (withRange_of_inRange (.inr (by omega)) _), ?stored, ?others, h8, h48, rfl⟩
  case stored => exact fun k hk => State.read_writeList_firstRegs hm h hk
  case others => exact fun a ha => Memory.read_writeList_other _ (by omega)

/-- Settles O31: the load is the loop of `loadRegs`, register by register. -/
theorem loadRegisters : Obligations.LoadRegisters := by
  intro x s h
  obtain ⟨h8, h48⟩ := State.nextIndex_toNat h
  refine ⟨_, (exec_ldVxMem x s).trans (withRange_of_inRange (.inr (by omega)) _), fun k => ?_, h8, h48, rfl⟩
  refine (getElem_loadRegs s.mem s.i.toNat (x.toNat + 1) s.v k.toNat k.isLt).trans ?_
  simp only [Nat.lt_succ_iff]
  rfl

/-- Settles O32: the store leaves register `k` at `i + k`, where the load from the same `i` reads it. -/
theorem storeLoadRoundTrip : Obligations.StoreLoadRoundTrip := by
  intro x s t v' pc' hm h ht
  obtain rfl := Host.Outcome.next.inj
    ((withRange_of_inRange (.inr (by omega)) _).symm.trans ((exec_ldMemVx x s).symm.trans ht))
  refine ⟨_, (exec_ldVxMem x _).trans (withRange_of_inRange (.inr (Nat.succ_le_succ h)) _), fun k hk => ?_, rfl, rfl⟩
  refine (getElem_loadRegs _ _ _ _ k.toNat k.isLt).trans ?_
  rw [if_pos (Nat.lt_succ_of_le hk)]
  exact State.read_writeList_firstRegs hm h hk

/-- Settles O33: each of the four instructions is the range check before any effect. -/
theorem dataAccessOutOfRangeFaults : Obligations.DataAccessOutOfRangeFaults := by
  refine ⟨rfl, fun x y n s t ht => ?_⟩
  subst ht
  refine ⟨fun h => ?ldBVx, fun h => ⟨?ldMemVx, ?ldVxMem⟩, fun hn h => ?drw⟩
  case ldBVx => exact (exec_ldBVx x s).trans (withRange_of_outOfRange (by decide) (by omega) _)
  case ldMemVx => exact (exec_ldMemVx x s).trans (withRange_of_outOfRange (by omega) (by omega) _)
  case ldVxMem => exact (exec_ldVxMem x s).trans (withRange_of_outOfRange (by omega) (by omega) _)
  case drw => exact (exec_drw x y n s).trans (withRange_of_outOfRange (by omega) (by omega) _)

end Machine

end Sys2Proof
end

section
/-! PROOFS. Framebuffer (spec/43_display.md): the clear (R160), and the draw as inverting the pixels its sprite covers (R161
to R165). -/

namespace Sys2Proof

namespace Machine

/-! ### The pixels of a sprite -/

theorem originOutside_eq_true {x0 y0 : Nat} : originOutside x0 y0 = true ↔ 64 ≤ x0 ∨ 32 ≤ y0 := by
  simp only [originOutside, Bool.or_eq_true, decide_eq_true_eq]
  rfl

/-- In clip mode a bit off the screen has no target (R162). -/
theorem spriteTarget_clip (px py : Nat) :
    spriteTarget false px py = if 64 ≤ px ∨ 32 ≤ py then none else some (py, px) := rfl

/-- The target of a sprite bit in the two modes, on the screen (R162). -/
theorem spriteTarget_originOutside {x0 y0 px py r c : Nat} (hr : r < 32) (hc : c < 64) :
    spriteTarget (originOutside x0 y0) px py = some (r, c) ↔
      if 64 ≤ x0 ∨ 32 ≤ y0 then py % 32 = r ∧ px % 64 = c else py = r ∧ px = c := by
  by_cases h : 64 ≤ x0 ∨ 32 ≤ y0
  · rw [originOutside_eq_true.mpr h, if_pos h]
    simp only [spriteTarget, if_true, Option.some.injEq, Prod.mk.injEq]
    rfl
  · rw [Bool.eq_false_iff.mpr (mt originOutside_eq_true.mp h), if_neg h]
    rw [spriteTarget_clip]
    by_cases hout : 64 ≤ px ∨ 32 ≤ py
    · rw [if_pos hout]
      simp only [reduceCtorEq, false_iff]
      omega
    · rw [if_neg hout]
      simp only [Option.some.injEq, Prod.mk.injEq]

/-- The pixels `Dxyn` inverts from a state, as the drawing loop lists them (R161). -/
def State.sprite (s : State) (x y : RegIdx) (n : Imm4) : List (Nat × Nat) :=
  spriteTargets s.mem s.i.toNat n.toNat (s.getV x).toNat (s.getV y).toNat

/-- The list the drawing loop goes through holds exactly the pixels the sprite covers. -/
theorem State.mem_sprite {s : State} {x y : RegIdx} {n : Imm4} {r c : Nat} (hr : r < 32) (hc : c < 64) :
    (r, c) ∈ s.sprite x y n ↔ spriteCovers s x y n r c := by
  simp only [State.sprite, mem_spriteTargets, spriteTarget_originOutside hr hc, spriteCovers]

/-- No sprite bit lands off the screen. -/
theorem State.sprite_bounds {s : State} {x y : RegIdx} {n : Imm4} {t : Nat × Nat} (h : t ∈ s.sprite x y n) :
    t.1 < 32 ∧ t.2 < 64 := by
  obtain ⟨_, _, _, _, _, ht⟩ := mem_spriteTargets.mp h
  exact spriteTarget_bounds ht

theorem State.sprite_nodup (s : State) (x y : RegIdx) (n : Imm4) : (s.sprite x y n).Nodup :=
  spriteTargets_nodup _ _ _ _ (Nat.le_of_lt n.isLt)

/-! ### The draw -/

/-- A draw inverts the pixels of its sprite and no other (R163). -/
theorem State.drawn_pixel (s : State) (x y : RegIdx) (n : Imm4) (r c : Nat) :
    (s.drawn x y n).fb.pixel r c = (s.fb.pixel r c ^^ decide ((r, c) ∈ s.sprite x y n)) :=
  (foldl_drawPixel _ (fun _ => State.sprite_bounds) (s.sprite_nodup x y n) (s.fb, false)).1 r c

/-- The flag of a draw is set exactly when a pixel of its sprite was on (R163). -/
theorem drawResult_flag (x y : RegIdx) (n : Imm4) (s : State) :
    (drawResult x y n s).2 = true ↔ spriteCollides s x y n := by
  refine (foldl_drawPixel _ (fun _ => State.sprite_bounds) (s.sprite_nodup x y n) (s.fb, false)).2.trans ?_
  constructor
  · rintro (h | ⟨⟨r, c⟩, ht, hp⟩)
    · cases h
    · obtain ⟨hr, hc⟩ := State.sprite_bounds ht
      exact ⟨r, hr, c, hc, (State.mem_sprite hr hc).mp ht, hp⟩
  · rintro ⟨r, hr, c, hc, hcov, hp⟩
    exact .inr ⟨(r, c), (State.mem_sprite hr hc).mpr hcov, hp⟩

theorem State.drawn_getV (s : State) (x y : RegIdx) (n : Imm4) (k : RegIdx) :
    (s.drawn x y n).getV k = if k = Config.flagReg then flagByte (drawResult x y n s).2 else s.getV k :=
  State.getV_setFlag _ k _

/-- What a draw does not change in the state (R161). -/
theorem State.drawn_frame (s : State) (x y : RegIdx) (n : Imm4) : s.drawn x y n =
    { s with fb := (s.drawn x y n).fb, v := (s.drawn x y n).v, drawPending := true, pc := s.pc + 2#16 } := rfl

/-- Everything `Dxyn` can do: the draw, or the range fault, which leaves the screen alone. -/
theorem exec_drw_cases {x y : RegIdx} {n : Imm4} {s t : State} (h : exec (.drw x y n) s = .next t) :
    (inRange s.i.toNat n.toNat = true ∧ t = s.drawn x y n) ∨
    (inRange s.i.toNat n.toNat = false ∧ t = raise .memOutOfRange s.i s) := by
  rw [exec_drw] at h
  obtain ⟨hr, e⟩ | ⟨hr, e⟩ := withRange_cases n.toNat s (s.drawn x y n)
  · exact .inl ⟨hr, (Host.Outcome.next.inj (e.symm.trans h)).symm⟩
  · exact .inr ⟨hr, (Host.Outcome.next.inj (e.symm.trans h)).symm⟩

/-- Two screens with the same pixels are the same. -/
theorem Framebuffer.ext_pixel {fb fb' : Framebuffer} (h : ∀ r < 32, ∀ c < 64, fb.pixel r c = fb'.pixel r c) :
    fb = fb' := by
  apply Vector.ext
  intro r hr
  apply BitVec.eq_of_getLsbD_eq
  intro c hc
  simpa only [Framebuffer.pixel, hr, dite_true] using h r hr c hc

/-! ### The obligations -/

/-- Settles O34: the meaning is one write each of the screen, of `draw_pending` and of `pc`. -/
theorem clearScreen : Obligations.ClearScreen :=
  fun s => ⟨_, exec_cls s, Framebuffer.pixel_clear, rfl⟩

/-- Settles O35: the drawing loop inverts the sprite's pixels, which are the covered ones, and its flag says whether one of
them was on. -/
theorem drawInvertsCoveredPixels : Obligations.DrawInvertsCoveredPixels := by
  intro x y n s h
  have hin : n.toNat = 0 ∨ s.i.toNat + n.toNat ≤ 4096 := by
    obtain rfl | h := h
    · exact .inl rfl
    · omega
  refine ⟨_, (exec_drw x y n s).trans (withRange_of_inRange hin _), ?pixels, ?hit, ?miss, ?others, s.drawn_frame x y n⟩
  case pixels =>
    intro r hr c hc
    rw [State.drawn_pixel, ← State.mem_sprite hr hc]
    cases s.fb.pixel r c <;> simp
  case hit =>
    intro hcol
    rw [State.drawn_getV, (drawResult_flag x y n s).mpr hcol]
    rfl
  case miss =>
    intro hcol
    rw [State.drawn_getV, Bool.eq_false_iff.mpr (mt (drawResult_flag x y n s).mp hcol)]
    rfl
  case others =>
    intro k hk
    rw [State.drawn_getV, if_neg (show ¬ k = Config.flagReg from hk)]

/-- Settles O36: with the same coordinates, memory and `i` the second draw goes through the same pixels, and two inversions
cancel; out of range neither draw touches the screen. -/
theorem drawTwiceRestoresScreen : Obligations.DrawTwiceRestoresScreen := by
  intro x y n s t u ht hx hy hu
  obtain ⟨hr, rfl⟩ | ⟨hr, rfl⟩ := exec_drw_cases ht
  · obtain ⟨-, rfl⟩ | ⟨hr', -⟩ := exec_drw_cases hu
    · have hsprite : (s.drawn x y n).sprite x y n = s.sprite x y n := by
        unfold State.sprite
        rw [hx, hy]
        rfl
      apply Framebuffer.ext_pixel
      intro r _ c _
      rw [State.drawn_pixel, State.drawn_pixel, hsprite, Bool.xor_assoc, Bool.xor_self, Bool.xor_false]
    · cases hr.symm.trans hr'
  · obtain ⟨hr', -⟩ | ⟨-, rfl⟩ := exec_drw_cases hu
    · cases hr.symm.trans hr'
    · rfl

/-- Settles O37: with the origin on the screen the target of a sprite bit is the bit's own place, which is in the box. -/
theorem insideOriginClips : Obligations.InsideOriginClips := by
  intro x y n s t hx hy ht r c hbox
  obtain ⟨-, rfl⟩ | ⟨-, rfl⟩ := exec_drw_cases ht
  · have hnot : (r, c) ∉ s.sprite x y n := by
      intro hmem
      obtain ⟨hr, hc⟩ := State.sprite_bounds hmem
      obtain ⟨row, hrow, col, hcol, -, htgt⟩ := (State.mem_sprite hr hc).mp hmem
      rw [if_neg (by omega)] at htgt
      omega
    rw [State.drawn_pixel, decide_eq_false hnot, Bool.xor_false]
  · rfl

end Machine

end Sys2Proof
end

section
/-! PROOFS. Random, keypad and timer instructions (spec/44_keys_timers_random.md R170 to R177). -/

namespace Sys2Proof

namespace Machine

/-- Settles O38: the byte under the mask is written to `v[x]`, and the counter moves on. -/
theorem randomByteUnderMask : Obligations.RandomByteUnderMask :=
  fun x kk s => ⟨_, exec_rnd x kk s, s.getV_advance_setV x _, rfl, rfl⟩

/-- Settles O39: for an index 0 to 15 both meanings are the one skip, on the flag and on its negation. -/
theorem skipOnKey_inRange : Obligations.SkipOnKey := by
  intro x s h
  rw [exec_skp, exec_sknp, skipOnKey_of_le h, skipOnKey_of_le h, State.skipIf_eq, State.skipIf_eq]
  by_cases hk : s.keys.getLsbD (s.getV x).toNat = true <;> simp [State.keyHeld, hk]

/-- Settles O40: above 15 both meanings are the fault entry with the whole byte as detail. -/
theorem keyIndexOutOfRangeFaults : Obligations.KeyIndexOutOfRangeFaults := by
  refine ⟨rfl, fun x s t h ht => ?_⟩
  subst ht
  rw [exec_skp, exec_sknp, skipOnKey_of_gt h, skipOnKey_of_gt h, BitVec.ofNat_toNat]
  exact ⟨rfl, rfl⟩

/-- Settles O41: with no key held there is no least one. -/
theorem keyWaitChangesNothing : Obligations.KeyWaitChangesNothing :=
  fun x _ h => exec_ldVxK_none x (State.lowestKey_eq_none.mpr h)

/-- Settles O42: with a key held there is a least one, and its index fits in a byte. -/
theorem keyWaitCapturesLeastKey : Obligations.KeyWaitCapturesLeastKey := by
  intro x s hheld
  cases hk : s.lowestKey with
  | none =>
    obtain ⟨k, hlt, hon⟩ := hheld
    cases hon.symm.trans (State.lowestKey_eq_none.mp hk k hlt)
  | some k =>
    obtain ⟨hlt, hon, hleast⟩ := State.lowestKey_eq_some hk
    refine ⟨_, exec_ldVxK_some x hk, ?_⟩
    have hval : ((s.advance.setV x (BitVec.ofNat 8 k)).getV x).toNat = k := by
      rw [State.getV_setV_same, BitVec.toNat_ofNat, Nat.mod_eq_of_lt (by omega)]
    rw [hval]
    exact ⟨hlt, hon, hleast, fun _ hne => State.getV_setV_other _ _ hne, rfl⟩

/-- Settles O43: one write each, of `v[x]`, of DT and of ST. -/
theorem timerInstructions : Obligations.TimerInstructions :=
  fun x s => ⟨⟨_, exec_ldVxDt x s, s.getV_advance_setV x s.dt, rfl⟩, exec_ldDtVx x s, exec_ldStVx x s⟩

end Machine

end Sys2Proof
end

section
/-! PROOFS. The `Step` cycle (spec/30_encoding.md R63): fetch (R43), the decoded instruction, no word to fetch (R202), the
undefined word (R67, R68). -/

namespace Sys2Proof

namespace Machine

/-- Settles O5: the fetched word is the two bytes put together, big-endian. -/
theorem fetchReadsBigEndianWord : Obligations.FetchReadsBigEndianWord :=
  fun _ => ⟨fun h => ⟨_, fetchWord_of_le h, wordOfBytes_toNat _ _⟩, fetchWord_of_ge⟩

/-- The first two bytes of a list that decodes are a word that decodes to the same instruction (R60). -/
theorem decodeWord_of_decodeBytes {hi lo : Byte} {rest rest' : List Byte} {i : Instr}
    (h : decodeBytes (hi :: lo :: rest) = .ok (i, rest')) : decodeWord (wordOfBytes hi lo) = .ok i := by
  simp only [decodeBytes] at h
  split at h
  · next hd =>
    cases h
    exact hd
  · cases h

/-- Settles O6: the two bytes at `pc` are the word the step fetches and decodes. -/
theorem stepRunsDecodedInstruction : Obligations.StepRunsDecodedInstruction :=
  fun _ _ _ hs hpc hd => stepWith_decoded exec hs (fetchWord_of_le hpc) (decodeWord_of_decodeBytes hd)

/-- Settles O7: with no word to fetch the step is the fault entry. -/
theorem fetchOutOfRangeFaults : Obligations.FetchOutOfRangeFaults :=
  ⟨rfl, fun _ hs hpc => stepWith_noWord exec hs (fetchWord_of_ge hpc)⟩

/-- Settles O8: an undefined word is one the decoder rejects, and STRICT_DECODE selects what it does. -/
theorem undefinedWordNoopOrFault : Obligations.UndefinedWordNoopOrFault := by
  refine ⟨rfl, fun s w hs hf hw => ?_⟩
  obtain ⟨r, hd⟩ := wordDefined_eq_false_iff.mp hw
  have hstep : step s = .next (undefinedWord w s) := stepWith_undefined exec hs hf hd
  obtain ⟨hstrict, e⟩ | ⟨hstrict, e⟩ := undefinedWord_cases w s
  · exact ⟨fun _ => hstep.trans (congrArg _ e), fun h => (by cases hstrict.symm.trans h)⟩
  · exact ⟨fun h => (by cases hstrict.symm.trans h), fun _ => hstep.trans (congrArg _ e)⟩

end Machine

end Sys2Proof
end

section
/-! PROOFS. What an instruction can do, said once for all 34: it runs to its end within the frame of spec/10_state.md R10 to
R14, or it raises the one fault of spec/60_exceptions.md R213 and changes nothing but the fault registers. -/

namespace Sys2Proof

namespace Machine

/-! ### The two ends of an instruction -/

/-- Every live stack entry is a return address within the bound of R16. -/
def State.StackBounded (s : State) : Prop := ∀ k : Fin 16, k.val < s.sp.val → s.stack[k].toNat ≤ 4096

/-- What `i` leaves unchanged, whether it runs to its end or faults (R10, R46). A field `i` cannot write needs no proof: the
two states hold the same value there. -/
structure Frame (i : Instr) (s t : State) : Prop where
  regs : ∀ k, i.writesReg k = false → t.getV k = s.getV k := by intros; rfl
  mem : ∀ a, a < s.i.toNat ∨ s.i.toNat + i.storeLength ≤ a → t.mem.read a = s.mem.read a := by intros; rfl
  memWf : s.mem.wf = true → t.mem.wf = true := by intro h; exact h
  index : (∀ nnn, i ≠ .ldI nnn) → (∀ x, i ≠ .addIVx x ∧ i ≠ .ldFVx x ∧ i ≠ .ldMemVx x ∧ i ≠ .ldVxMem x) →
    t.i = s.i := by intros; rfl
  stack : (∀ nnn, i ≠ .call nnn) → t.stack = s.stack := by intros; rfl
  sp : (∀ nnn, i ≠ .call nnn) → i ≠ .ret → t.sp = s.sp := by intros; rfl
  stackBounded : s.pc.toNat ≤ 4094 → s.StackBounded → t.StackBounded := by intro _ h; exact h
  dt : (∀ x, i ≠ .ldDtVx x) → t.dt = s.dt := by intros; rfl
  st : (∀ x, i ≠ .ldStVx x) → t.st = s.st := by intros; rfl
  screen : i ≠ .cls → (∀ x y n, i ≠ .drw x y n) → t.fb = s.fb ∧ t.drawPending = s.drawPending := by
    intros; exact ⟨rfl, rfl⟩
  pending : s.drawPending = true → t.drawPending = true := by intro h; exact h
  keys : t.keys = s.keys := by rfl
  mode : t.mode = s.mode := by rfl
  strictDecode : t.strictDecode = s.strictDecode := by rfl
  log : t.log = s.log := by rfl
  rndCount : (∀ x kk, i ≠ .rnd x kk) → t.rndCount = s.rndCount := by intros; rfl

/-- The status and the fault registers stay. -/
structure NoFault (s t : State) : Prop where
  status : t.status = s.status := by rfl
  faultCause : t.faultCause = s.faultCause := by rfl
  faultPc : t.faultPc = s.faultPc := by rfl
  faultInfo : t.faultInfo = s.faultInfo := by rfl

/-- Where `pc` goes when `i` does not fault: past the instruction unless `i` writes it, and within the bound of R16. -/
structure PcRule (i : Instr) (s t : State) : Prop where
  next : i.writesPc = false → t.pc = s.pc + 2#16
  bound : s.pc.toNat ≤ 4094 → s.StackBounded → t.pc.toNat ≤ 0x10FE

/-- The two ends of an instruction: it runs within its frame, or it raises its one fault with the detail of R201. -/
def Answers (i : Instr) (s : State) : Prop :=
  (∃ t, exec i s = .next t ∧ Frame i s t ∧ NoFault s t ∧ PcRule i s t) ∨
  (∃ info, exec i s = .next (raise i.faultOf info s) ∧ i.faultOf ≠ .none ∧
    (raise i.faultOf info s).faultRecorded = true)

/-- A fault is within every frame (R209). -/
theorem raise_frame (i : Instr) (c : FaultCause) (info : Word) (s : State) : Frame i s (raise c info s) := {}

/-! ### The bounds of `pc` -/

theorem toNat_add_le {pc : Word} (h : pc.toNat ≤ 4094) (d : Nat) (hd : d ≤ 4) :
    (pc + BitVec.ofNat 16 d).toNat ≤ 0x10FE := by
  rw [BitVec.toNat_add, BitVec.toNat_ofNat]
  omega

/-- The rule of an instruction that advances. -/
theorem PcRule.of_advance {i : Instr} {s t : State} (h : t.pc = s.pc + 2#16) : PcRule i s t where
  next _ := h
  bound hpc _ := h ▸ toNat_add_le hpc 2 (by decide)

/-- The rule of an instruction that writes `pc`. -/
theorem PcRule.of_writesPc {i : Instr} {s t : State} (hw : i.writesPc = true)
    (h : s.pc.toNat ≤ 4094 → s.StackBounded → t.pc.toNat ≤ 0x10FE) : PcRule i s t where
  next hn := by cases hw.symm.trans hn
  bound := h

theorem setWidth_toNat_le (nnn : Imm12) : (nnn.setWidth 16).toNat ≤ 0x10FE := by
  have := nnn.isLt
  rw [BitVec.toNat_setWidth]
  omega

theorem setWidth_add_toNat_le (nnn : Imm12) (b : Byte) : (nnn.setWidth 16 + b.setWidth 16).toNat ≤ 0x10FE := by
  have := nnn.isLt
  have := b.isLt
  rw [setWidth_add_setWidth, BitVec.toNat_ofNat]
  omega

/-! ### The shared ends of instructions -/

section

variable {i : Instr} {s : State}

/-- An instruction that advances and does not fault. -/
theorem answers_of_advance {t : State} (h : exec i s = .next t) (hf : Frame i s t) (hn : NoFault s t)
    (hpc : t.pc = s.pc + 2#16) : Answers i s :=
  .inl ⟨t, h, hf, hn, .of_advance hpc⟩

theorem answers_of_skipIf {taken : Bool} (h : exec i s = .next (s.skipIf taken)) (hw : i.writesPc = true) :
    Answers i s := by
  rw [State.skipIf_eq] at h
  refine .inl ⟨_, h, {}, {}, .of_writesPc hw fun hpc _ => ?_⟩
  cases taken
  · exact toNat_add_le hpc 2 (by decide)
  · exact toNat_add_le hpc 4 (by decide)

/-- A write of one register, which is the one `i` may write. -/
theorem frame_setV {x : RegIdx} (b : Byte) (hw : ∀ k, i.writesReg k = (k == x)) : Frame i s (s.advance.setV x b) where
  regs k hk := State.getV_setV_other _ _ (ne_of_beq_false ((hw k).symm.trans hk))

theorem answers_of_setV {x : RegIdx} {b : Byte} (h : exec i s = .next (s.advance.setV x b))
    (hw : ∀ k, i.writesReg k = (k == x)) : Answers i s :=
  answers_of_advance h (frame_setV b hw) {} rfl

theorem answers_of_aluWrite {x : RegIdx} {b f : Byte} (h : exec i s = .next (aluWrite x b f s))
    (hw : ∀ k, i.writesReg k = (k == x || k == Config.flagReg)) : Answers i s := by
  refine answers_of_advance h { regs := fun k hk => ?_ } {} rfl
  obtain ⟨hx, hflag⟩ := Bool.or_eq_false_iff.mp ((hw k).symm.trans hk)
  rw [aluWrite_getV, if_neg (ne_of_beq_false hflag), if_neg (ne_of_beq_false hx)]

/-- An instruction that checks its range first (R203). -/
theorem answers_of_withRange {len : Nat} {e : State} (h : exec i s = withRange len s e) (hlen : len ≤ 16)
    (hc : i.faultOf = .memOutOfRange) (hf : Frame i s e) (hn : NoFault s e) (hpc : e.pc = s.pc + 2#16) :
    Answers i s := by
  obtain ⟨-, he⟩ | ⟨hr, he⟩ := withRange_cases len s e
  · exact answers_of_advance (h.trans he) hf hn hpc
  · obtain ⟨-, hr⟩ := inRange_eq_false.mp hr
    refine .inr ⟨s.i, by rw [hc, h, he], by simp [hc], ?_⟩
    simp only [hc, State.faultRecorded, raise_faultCause, raise_i, raise_faultInfo, decide_true, Bool.and_true,
      decide_eq_true_eq]
    omega

/-- An instruction that skips on a key (R177). -/
theorem answers_of_skipOnKey {x : RegIdx} {wanted : Bool} (h : exec i s = skipOnKey x wanted s)
    (hw : i.writesPc = true) (hc : i.faultOf = .keyIndexOutOfRange) : Answers i s := by
  obtain ⟨-, he⟩ | ⟨hgt, he⟩ := skipOnKey_cases x wanted s
  · exact answers_of_skipIf (h.trans he) hw
  · have hlt := (s.getV x).isLt
    refine .inr ⟨(s.getV x).setWidth 16, by rw [hc, h, he], by simp [hc], ?_⟩
    simp only [hc, State.faultRecorded, raise_faultCause, raise_faultInfo, BitVec.toNat_setWidth, Bool.and_eq_true,
      decide_eq_true_eq]
    omega

end

/-! ### The instructions with an end of their own -/

theorem answers_ret (s : State) : Answers .ret s := by
  by_cases h : 0 < s.sp.val
  · refine .inl ⟨_, exec_ret_of_pos h, ?frame, {}, .of_writesPc rfl fun _ hst => ?bound⟩
    case frame =>
      exact { sp := fun _ hne => absurd rfl hne
              stackBounded := fun _ hst k hk => hst k (Nat.lt_of_lt_of_le hk (Nat.sub_le _ _)) }
    case bound =>
      have := hst ⟨s.sp.val - 1, by omega⟩ (Nat.sub_lt h Nat.one_pos)
      exact Nat.le_trans this (by decide)
  · have hsp : s.sp = 0 := Fin.ext (Nat.eq_zero_of_not_pos h)
    exact .inr ⟨_, exec_ret_empty h, nofun, by simp [State.faultRecorded, Instr.faultOf, hsp]⟩

theorem answers_call (nnn : Imm12) (s : State) : Answers (.call nnn) s := by
  by_cases h : s.sp.val < 16
  · refine .inl ⟨_, exec_call_of_lt nnn h, ?frame, {}, .of_writesPc rfl fun _ _ => setWidth_toNat_le nnn⟩
    case frame =>
      refine { stack := fun hne => absurd rfl (hne nnn), sp := fun hne _ => absurd rfl (hne nnn), stackBounded := ?_ }
      intro hpc hst k hk
      show (s.stack.set s.sp.val (s.pc + 2#16) h)[k.val].toNat ≤ 4096
      rw [Vector.getElem_set]
      split
      · rw [BitVec.toNat_add, BitVec.toNat_ofNat]
        omega
      · next hne => exact hst k (Nat.lt_of_le_of_ne (Nat.le_of_lt_succ hk) (Ne.symm hne))
  · have hsp : s.sp = 16 := Fin.ext (by have := s.sp.isLt; show s.sp.val = 16; omega)
    exact .inr ⟨_, exec_call_full nnn h, nofun, by simp [State.faultRecorded, Instr.faultOf, hsp]⟩

theorem answers_ldVxK (x : RegIdx) (s : State) : Answers (.ldVxK x) s := by
  cases hk : s.lowestKey with
  | none => exact .inl ⟨s, exec_ldVxK_none x hk, {}, {}, .of_writesPc rfl fun hpc _ => Nat.le_trans hpc (by decide)⟩
  | some k => exact answers_of_setV (exec_ldVxK_some x hk) fun _ => rfl

theorem answers_drw (x y : RegIdx) (n : Imm4) (s : State) : Answers (.drw x y n) s := by
  refine answers_of_withRange (exec_drw x y n s) (Nat.le_of_lt n.isLt) rfl ?frame {} rfl
  exact { regs := fun k hk => by rw [State.drawn_getV, if_neg (ne_of_beq_false hk)]
          screen := fun _ hne => absurd rfl (hne x y n)
          pending := fun _ => rfl }

theorem answers_ldBVx (x : RegIdx) (s : State) : Answers (.ldBVx x) s := by
  refine answers_of_withRange (exec_ldBVx x s) (by decide) rfl ?frame {} rfl
  exact { mem := fun _ ha => Memory.read_writeList_other _ ha
          memWf := fun h => Memory.writeList_wf h _ _ }

theorem answers_ldMemVx (x : RegIdx) (s : State) : Answers (.ldMemVx x) s := by
  refine answers_of_withRange (exec_ldMemVx x s) x.isLt rfl ?frame {} rfl
  have hlen := s.length_firstRegs (n := x.toNat + 1) x.isLt
  exact { mem := fun _ ha => Memory.read_writeList_other _ (hlen.symm ▸ ha)
          memWf := fun h => Memory.writeList_wf h _ _
          index := fun _ hne => absurd rfl (hne x).2.2.1 }

theorem answers_ldVxMem (x : RegIdx) (s : State) : Answers (.ldVxMem x) s := by
  refine answers_of_withRange (exec_ldVxMem x s) x.isLt rfl ?frame {} rfl
  refine { regs := fun k hk => ?_, index := fun _ hne => absurd rfl (hne x).2.2.2 }
  have hgt : ¬ k.toNat < x.toNat + 1 := fun hlt => of_decide_eq_false hk (Nat.le_of_lt_succ hlt)
  exact (getElem_loadRegs s.mem s.i.toNat (x.toNat + 1) s.v k.toNat k.isLt).trans (if_neg hgt)

/-! ### All instructions -/

/-- Every instruction runs to its end within its frame or raises its one fault. -/
theorem exec_answers (i : Instr) (s : State) : Answers i s := by
  cases i with
  | cls =>
    exact answers_of_advance (exec_cls s) { screen := fun hne => absurd rfl hne, pending := fun _ => rfl } {} rfl
  | ret => exact answers_ret s
  | jp nnn => exact .inl ⟨_, exec_jp nnn s, {}, {}, .of_writesPc rfl fun _ _ => setWidth_toNat_le nnn⟩
  | call nnn => exact answers_call nnn s
  | seKk x kk => exact answers_of_skipIf (exec_seKk x kk s) rfl
  | sneKk x kk => exact answers_of_skipIf (exec_sneKk x kk s) rfl
  | seVy x y => exact answers_of_skipIf (exec_seVy x y s) rfl
  | ldKk x kk => exact answers_of_setV (exec_ldKk x kk s) fun _ => rfl
  | addKk x kk => exact answers_of_setV (exec_addKk x kk s) fun _ => rfl
  | ldVy x y => exact answers_of_setV (exec_ldVy x y s) fun _ => rfl
  | orVy x y => exact answers_of_aluWrite (exec_orVy x y s) fun _ => rfl
  | andVy x y => exact answers_of_aluWrite (exec_andVy x y s) fun _ => rfl
  | xorVy x y => exact answers_of_aluWrite (exec_xorVy x y s) fun _ => rfl
  | addVy x y => exact answers_of_aluWrite (exec_addVy x y s) fun _ => rfl
  | subVy x y => exact answers_of_aluWrite (exec_subVy x y s) fun _ => rfl
  | shrVy x y => exact answers_of_aluWrite (exec_shrVy x y s) fun _ => rfl
  | subnVy x y => exact answers_of_aluWrite (exec_subnVy x y s) fun _ => rfl
  | shlVy x y => exact answers_of_aluWrite (exec_shlVy x y s) fun _ => rfl
  | sneVy x y => exact answers_of_skipIf (exec_sneVy x y s) rfl
  | ldI nnn => exact answers_of_advance (exec_ldI nnn s) { index := fun hne _ => absurd rfl (hne nnn) } {} rfl
  | jpV0 nnn => exact .inl ⟨_, exec_jpV0 nnn s, {}, {}, .of_writesPc rfl fun _ _ => setWidth_add_toNat_le nnn _⟩
  | rnd x kk =>
    exact answers_of_advance (exec_rnd x kk s)
      { regs := (frame_setV (i := .rnd x kk) _ fun _ => rfl).regs, rndCount := fun hne => absurd rfl (hne x kk) } {} rfl
  | drw x y n => exact answers_drw x y n s
  | skp x => exact answers_of_skipOnKey (exec_skp x s) rfl rfl
  | sknp x => exact answers_of_skipOnKey (exec_sknp x s) rfl rfl
  | ldVxDt x => exact answers_of_setV (exec_ldVxDt x s) fun _ => rfl
  | ldVxK x => exact answers_ldVxK x s
  | ldDtVx x => exact answers_of_advance (exec_ldDtVx x s) { dt := fun hne => absurd rfl (hne x) } {} rfl
  | ldStVx x => exact answers_of_advance (exec_ldStVx x s) { st := fun hne => absurd rfl (hne x) } {} rfl
  | addIVx x =>
    exact answers_of_advance (exec_addIVx x s) { index := fun _ hne => absurd rfl (hne x).1 } {} rfl
  | ldFVx x =>
    exact answers_of_advance (exec_ldFVx x s) { index := fun _ hne => absurd rfl (hne x).2.1 } {} rfl
  | ldBVx x => exact answers_ldBVx x s
  | ldMemVx x => exact answers_ldMemVx x s
  | ldVxMem x => exact answers_ldVxMem x s

/-- Every instruction keeps its frame, whether it runs to its end or faults. -/
theorem exec_frame {i : Instr} {s t : State} (h : exec i s = .next t) : Frame i s t := by
  obtain ⟨u, hu, hf, -, -⟩ | ⟨info, hu, -, -⟩ := exec_answers i s
  · exact Host.Outcome.next.inj (hu.symm.trans h) ▸ hf
  · exact Host.Outcome.next.inj (hu.symm.trans h) ▸ raise_frame i _ info s

/-! ### The obligations -/

/-- Settles O50: the registers of the frame. -/
theorem generalRegisterFrame : Obligations.GeneralRegisterFrame := fun _ _ _ h => (exec_frame h).regs

/-- Settles O51: the bytes of the frame. -/
theorem memoryFrame : Obligations.MemoryFrame := fun _ _ _ h => (exec_frame h).mem

/-- Settles O52: the index register, the stack and the timers of the frame. -/
theorem indexStackTimerFrame : Obligations.IndexStackTimerFrame := by
  intro i s t h
  have hf := exec_frame h
  exact ⟨hf.index, hf.stack, hf.sp, hf.dt, hf.st⟩

/-- The mode and the configuration after a `Step`, which no instruction and no undefined word writes. -/
theorem step_config {s t : State} (h : step s = .next t) : t.mode = s.mode ∧ t.strictDecode = s.strictDecode := by
  obtain ⟨-, e⟩ | ⟨-, -, e⟩ | ⟨op, r, -, -, -, e⟩ | ⟨op, i, -, -, -, e⟩ := stepWith_cases exec s
  · obtain rfl := Host.Outcome.next.inj (e.symm.trans h)
    exact ⟨rfl, rfl⟩
  · obtain rfl := Host.Outcome.next.inj (e.symm.trans h)
    exact ⟨rfl, rfl⟩
  · obtain rfl := Host.Outcome.next.inj (e.symm.trans h)
    obtain ⟨-, e⟩ | ⟨-, e⟩ := undefinedWord_cases op s <;> rw [e] <;> exact ⟨rfl, rfl⟩
  · have hf := exec_frame (e.symm.trans h)
    exact ⟨hf.mode, hf.strictDecode⟩

/-- Settles O53: the rest of the frame; and of the operations only `Step` and `Reset` do more than a record update that
leaves the mode and the configuration alone. -/
theorem screenKeysModeFrame : Obligations.ScreenKeysModeFrame := by
  refine ⟨fun op s t hop h => ?operations, fun i s t h => ?instructions⟩
  case operations =>
    cases op with
    | reset => cases hop
    | step => exact step_config h
    | timerTick =>
      rw [← Host.Outcome.next.inj h, s.timerTick_frame]
      exact ⟨rfl, rfl⟩
    | setKeys k =>
      rw [← Host.Outcome.next.inj h, s.setKeys_frame k]
      exact ⟨rfl, rfl⟩
    | readFramebuffer => exact Host.Outcome.next.inj h ▸ ⟨rfl, rfl⟩
    | consumeDrawPending => exact Host.Outcome.next.inj h ▸ ⟨rfl, rfl⟩
    | readStatus => exact Host.Outcome.next.inj h ▸ ⟨rfl, rfl⟩
  case instructions =>
    have hf := exec_frame h
    exact ⟨hf.screen, hf.pending, hf.keys, hf.mode, hf.strictDecode, hf.log, hf.rndCount⟩

/-- Settles O54: a fault leaves `pc`, and an instruction that runs to its end follows its rule for `pc`. -/
theorem pcAdvancesByTwo : Obligations.PcAdvancesByTwo := by
  intro i s t hs h
  obtain ⟨u, hu, -, hn, hpc⟩ | ⟨info, hu, -, -⟩ := exec_answers i s
  · obtain rfl := Host.Outcome.next.inj (hu.symm.trans h)
    exact ⟨fun hw _ => hpc.next hw, fun hf => (by cases hf.symm.trans (hn.status.trans hs))⟩
  · obtain rfl := Host.Outcome.next.inj (hu.symm.trans h)
    exact ⟨fun _ hrun => (by cases hrun), fun _ => rfl⟩

/-- Settles O55: the two ends of an instruction, told apart by the status they leave. -/
theorem faultsArePrecise : Obligations.FaultsArePrecise := by
  intro i s hs
  obtain ⟨t, ht, -, hn, -⟩ | ⟨info, ht, hc, -⟩ := exec_answers i s
  · exact ⟨t, ht, fun hf => (by cases hf.symm.trans (hn.status.trans hs)),
      fun _ => ⟨hn.faultCause, hn.faultPc, hn.faultInfo⟩⟩
  · exact ⟨_, ht, fun _ => ⟨hc, rfl⟩, fun hrun => (by cases hrun)⟩

end Machine

end Sys2Proof
end

section
/-! PROOFS. What no step can tell apart: the mode but for five instructions (spec/10_state.md R25), the sound timer (R21),
the stack entries not in use (R19). One lemma over all instructions lays other values of the three fields over a state; the
obligations are the cases with one field laid over. -/

namespace Sys2Proof

namespace Machine

/-! ### A state with other values of the three fields -/

/-- The state with mode `m`, sound timer `b` and stack array `stk`. -/
def State.overlay (s : State) (m : Mode) (b : Byte) (stk : Vector Word 16) : State :=
  { s with mode := m, st := b, stack := stk }

/-- The stack array `stk` agrees with the state's in every entry in use. -/
def State.LiveAgree (s : State) (stk : Vector Word 16) : Prop := ∀ k : Fin 16, k.val < s.sp.val → stk[k] = s.stack[k]

/-- Another sound timer and stack array `b'` and `stk'` for the state `t` after a step, from `b` and `stk` for the state
before: the entries in use agree, and a field that was not laid over is not. -/
structure Carries (s t : State) (b b' : Byte) (stk stk' : Vector Word 16) : Prop where
  live : t.LiveAgree stk'
  st : b = s.st → b' = t.st
  stack : stk = s.stack → stk' = t.stack

/-- `i` does the same from a state and from the overlaid state, but for the overlay. -/
def ExecCarries (i : Instr) (s : State) (m : Mode) (b : Byte) (stk : Vector Word 16) : Prop :=
  ∃ t b' stk', exec i s = .next t ∧ exec i (s.overlay m b stk) = .next (t.overlay m b' stk') ∧ Carries s t b b' stk stk'

section

variable {i : Instr} {s : State} {m : Mode} {b : Byte} {stk : Vector Word 16}

/-! ### The shared ends of instructions -/

/-- Where the sound timer, `sp` and the stack keep their values, the overlay stays as it is. -/
theorem Carries.of_untouched (hl : s.LiveAgree stk) {t : State} (hst : t.st = s.st) (hsp : t.sp = s.sp)
    (hstk : t.stack = s.stack) : Carries s t b b stk stk where
  live k hk := hstk ▸ hl k (hsp ▸ hk)
  st e := e.trans hst.symm
  stack e := e.trans hstk.symm

theorem carries_of_untouched (hl : s.LiveAgree stk) {t : State} (h : exec i s = .next t)
    (h' : exec i (s.overlay m b stk) = .next (t.overlay m b stk)) (hst : t.st = s.st) (hsp : t.sp = s.sp)
    (hstk : t.stack = s.stack) : ExecCarries i s m b stk :=
  ⟨t, b, stk, h, h', .of_untouched hl hst hsp hstk⟩

theorem carries_of_skipIf (hl : s.LiveAgree stk) {taken : Bool} (h : exec i s = .next (s.skipIf taken))
    (h' : exec i (s.overlay m b stk) = .next ((s.overlay m b stk).skipIf taken)) : ExecCarries i s m b stk := by
  rw [State.skipIf_eq] at h h'
  exact carries_of_untouched hl h h' rfl rfl rfl

theorem carries_of_withRange (hl : s.LiveAgree stk) {len : Nat} {e : State} (h : exec i s = withRange len s e)
    (h' : exec i (s.overlay m b stk) = withRange len (s.overlay m b stk) (e.overlay m b stk)) (hst : e.st = s.st)
    (hsp : e.sp = s.sp) (hstk : e.stack = s.stack) : ExecCarries i s m b stk := by
  have hi : (s.overlay m b stk).i = s.i := rfl
  cases hr : inRange s.i.toNat len with
  | true =>
    rw [withRange, hr] at h
    rw [withRange, hi, hr] at h'
    exact carries_of_untouched hl h h' hst hsp hstk
  | false =>
    rw [withRange, hr] at h
    rw [withRange, hi, hr] at h'
    exact carries_of_untouched hl h h' rfl rfl rfl

theorem carries_of_skipOnKey (hl : s.LiveAgree stk) {x : RegIdx} {wanted : Bool} (h : exec i s = skipOnKey x wanted s)
    (h' : exec i (s.overlay m b stk) = skipOnKey x wanted (s.overlay m b stk)) : ExecCarries i s m b stk := by
  by_cases hx : (s.getV x).toNat ≤ 15
  · exact carries_of_skipIf hl (h.trans (skipOnKey_of_le hx wanted))
      (h'.trans (skipOnKey_of_le (s := s.overlay m b stk) hx wanted))
  · have hx := Nat.lt_of_not_le hx
    exact carries_of_untouched hl (h.trans (skipOnKey_of_gt hx wanted))
      (h'.trans (skipOnKey_of_gt (s := s.overlay m b stk) hx wanted)) rfl rfl rfl

/-! ### The instructions with an end of their own -/

/-- The return reads an entry in use (R100). -/
theorem carries_ret (hl : s.LiveAgree stk) : ExecCarries .ret s m b stk := by
  by_cases h : 0 < s.sp.val
  · have hpc : stk[s.sp.val - 1]'(by omega) = s.stack[s.sp.val - 1]'(by omega) :=
      hl ⟨s.sp.val - 1, by omega⟩ (Nat.sub_lt h Nat.one_pos)
    refine ⟨_, b, stk, exec_ret_of_pos h, (exec_ret_of_pos (s := s.overlay m b stk) h).trans ?_, ?live, id, id⟩
    · simp only [State.overlay, hpc]
    case live => exact fun k hk => hl k (Nat.lt_of_lt_of_le hk (Nat.sub_le _ _))
  · exact carries_of_untouched hl (exec_ret_empty h) (exec_ret_empty (s := s.overlay m b stk) h) rfl rfl rfl

/-- The call writes the first entry not in use (R102). -/
theorem carries_call (nnn : Imm12) (hl : s.LiveAgree stk) : ExecCarries (.call nnn) s m b stk := by
  by_cases h : s.sp.val < 16
  · refine ⟨_, b, stk.set s.sp.val (s.pc + 2#16) h, exec_call_of_lt nnn h,
      exec_call_of_lt nnn (s := s.overlay m b stk) h, ?live, id, fun e => e ▸ rfl⟩
    intro k hk
    show (stk.set s.sp.val (s.pc + 2#16) h)[k.val] = (s.stack.set s.sp.val (s.pc + 2#16) h)[k.val]
    rw [Vector.getElem_set, Vector.getElem_set]
    split
    · rfl
    · next hne => exact hl k (Nat.lt_of_le_of_ne (Nat.le_of_lt_succ hk) (Ne.symm hne))
  · exact carries_of_untouched hl (exec_call_full nnn h) (exec_call_full nnn (s := s.overlay m b stk) h) rfl rfl rfl

theorem carries_ldVxK (x : RegIdx) (hl : s.LiveAgree stk) : ExecCarries (.ldVxK x) s m b stk := by
  cases hk : s.lowestKey with
  | none =>
    exact carries_of_untouched hl (exec_ldVxK_none x hk) (exec_ldVxK_none x (s := s.overlay m b stk) hk) rfl rfl rfl
  | some k =>
    exact carries_of_untouched hl (exec_ldVxK_some x hk) (exec_ldVxK_some x (s := s.overlay m b stk) hk) rfl rfl rfl

/-- The sound timer is written and then the same on both sides (R176). -/
theorem carries_ldStVx (x : RegIdx) (hl : s.LiveAgree stk) : ExecCarries (.ldStVx x) s m b stk :=
  ⟨_, s.getV x, stk, exec_ldStVx x s, exec_ldStVx x (s.overlay m b stk), hl, fun _ => rfl, id⟩

/-! ### All instructions -/

/-- Every instruction does the same from the overlaid state, unless the overlay changes the mode and the instruction is one
of the five of R25. -/
theorem exec_carries (hm : i.modeDependent = false ∨ m = s.mode) (hl : s.LiveAgree stk) : ExecCarries i s m b stk := by
  cases i with
  | cls => exact carries_of_untouched hl (exec_cls s) (exec_cls _) rfl rfl rfl
  | ret => exact carries_ret hl
  | jp nnn => exact carries_of_untouched hl (exec_jp nnn s) (exec_jp nnn _) rfl rfl rfl
  | call nnn => exact carries_call nnn hl
  | seKk x kk => exact carries_of_skipIf hl (exec_seKk x kk s) (exec_seKk x kk _)
  | sneKk x kk => exact carries_of_skipIf hl (exec_sneKk x kk s) (exec_sneKk x kk _)
  | seVy x y => exact carries_of_skipIf hl (exec_seVy x y s) (exec_seVy x y _)
  | ldKk x kk => exact carries_of_untouched hl (exec_ldKk x kk s) (exec_ldKk x kk _) rfl rfl rfl
  | addKk x kk => exact carries_of_untouched hl (exec_addKk x kk s) (exec_addKk x kk _) rfl rfl rfl
  | ldVy x y => exact carries_of_untouched hl (exec_ldVy x y s) (exec_ldVy x y _) rfl rfl rfl
  | orVy x y => exact carries_of_untouched hl (exec_orVy x y s) (exec_orVy x y _) rfl rfl rfl
  | andVy x y => exact carries_of_untouched hl (exec_andVy x y s) (exec_andVy x y _) rfl rfl rfl
  | xorVy x y => exact carries_of_untouched hl (exec_xorVy x y s) (exec_xorVy x y _) rfl rfl rfl
  | addVy x y => exact carries_of_untouched hl (exec_addVy x y s) (exec_addVy x y _) rfl rfl rfl
  | subVy x y => exact carries_of_untouched hl (exec_subVy x y s) (exec_subVy x y _) rfl rfl rfl
  | shrVy x y =>
    obtain rfl := hm.resolve_left nofun
    exact carries_of_untouched hl (exec_shrVy x y s) (exec_shrVy x y _) rfl rfl rfl
  | subnVy x y => exact carries_of_untouched hl (exec_subnVy x y s) (exec_subnVy x y _) rfl rfl rfl
  | shlVy x y =>
    obtain rfl := hm.resolve_left nofun
    exact carries_of_untouched hl (exec_shlVy x y s) (exec_shlVy x y _) rfl rfl rfl
  | sneVy x y => exact carries_of_skipIf hl (exec_sneVy x y s) (exec_sneVy x y _)
  | ldI nnn => exact carries_of_untouched hl (exec_ldI nnn s) (exec_ldI nnn _) rfl rfl rfl
  | jpV0 nnn =>
    obtain rfl := hm.resolve_left nofun
    exact carries_of_untouched hl (exec_jpV0 nnn s) (exec_jpV0 nnn _) rfl rfl rfl
  | rnd x kk => exact carries_of_untouched hl (exec_rnd x kk s) (exec_rnd x kk _) rfl rfl rfl
  | drw x y n => exact carries_of_withRange hl (exec_drw x y n s) (exec_drw x y n _) rfl rfl rfl
  | skp x => exact carries_of_skipOnKey hl (exec_skp x s) (exec_skp x _)
  | sknp x => exact carries_of_skipOnKey hl (exec_sknp x s) (exec_sknp x _)
  | ldVxDt x => exact carries_of_untouched hl (exec_ldVxDt x s) (exec_ldVxDt x _) rfl rfl rfl
  | ldVxK x => exact carries_ldVxK x hl
  | ldDtVx x => exact carries_of_untouched hl (exec_ldDtVx x s) (exec_ldDtVx x _) rfl rfl rfl
  | ldStVx x => exact carries_ldStVx x hl
  | addIVx x => exact carries_of_untouched hl (exec_addIVx x s) (exec_addIVx x _) rfl rfl rfl
  | ldFVx x => exact carries_of_untouched hl (exec_ldFVx x s) (exec_ldFVx x _) rfl rfl rfl
  | ldBVx x => exact carries_of_withRange hl (exec_ldBVx x s) (exec_ldBVx x _) rfl rfl rfl
  | ldMemVx x =>
    obtain rfl := hm.resolve_left nofun
    exact carries_of_withRange hl (exec_ldMemVx x s) (exec_ldMemVx x _) rfl rfl rfl
  | ldVxMem x =>
    obtain rfl := hm.resolve_left nofun
    exact carries_of_withRange hl (exec_ldVxMem x s) (exec_ldVxMem x _) rfl rfl rfl

end

/-! ### One step -/

/-- What an undefined word does does not depend on the overlaid fields (R67, R68). -/
theorem undefinedWord_overlay (op : Word) (s : State) (m : Mode) (b : Byte) (stk : Vector Word 16) :
    undefinedWord op (s.overlay m b stk) = (undefinedWord op s).overlay m b stk := by
  have hs : (s.overlay m b stk).strictDecode = s.strictDecode := rfl
  unfold undefinedWord
  rw [hs]
  by_cases h : s.strictDecode = true
  · rw [if_pos h, if_pos h]
    rfl
  · rw [if_neg h, if_neg h]
    rfl

theorem undefinedWord_untouched (op : Word) (s : State) : (undefinedWord op s).st = s.st ∧
    (undefinedWord op s).sp = s.sp ∧ (undefinedWord op s).stack = s.stack := by
  obtain ⟨-, e⟩ | ⟨-, e⟩ := undefinedWord_cases op s <;> rw [e] <;> exact ⟨rfl, rfl, rfl⟩

/-- A step does the same from a state with another sound timer and other stack entries not in use. -/
theorem step_carries {s : State} (b : Byte) {stk : Vector Word 16} (hl : s.LiveAgree stk) :
    ∃ t b' stk', step s = .next t ∧ step (s.overlay s.mode b stk) = .next (t.overlay t.mode b' stk') ∧
      Carries s t b b' stk stk' := by
  obtain ⟨hs, e⟩ | ⟨hs, hf, e⟩ | ⟨op, r, hs, hf, hd, e⟩ | ⟨op, i, hs, hf, hd, e⟩ := stepWith_cases exec s
  · exact ⟨s, b, stk, e, stepWith_faulted exec (s := s.overlay s.mode b stk) hs, .of_untouched hl rfl rfl rfl⟩
  · exact ⟨_, b, stk, e, stepWith_noWord exec (s := s.overlay s.mode b stk) hs hf, .of_untouched hl rfl rfl rfl⟩
  · obtain ⟨hst, hsp, hstk⟩ := undefinedWord_untouched op s
    have e' : step (s.overlay s.mode b stk) = .next (undefinedWord op (s.overlay s.mode b stk)) :=
      stepWith_undefined exec (s := s.overlay s.mode b stk) hs hf hd
    refine ⟨_, b, stk, e, ?_, .of_untouched hl hst hsp hstk⟩
    rw [e', undefinedWord_overlay, (step_config e).1]
  · obtain ⟨t, b', stk', ht, ht', hc⟩ := exec_carries (i := i) (m := s.mode) (b := b) (.inr rfl) hl
    refine ⟨t, b', stk', e.trans ht, ?_, hc⟩
    rw [(step_config (e.trans ht)).1]
    exact (stepWith_decoded exec (s := s.overlay s.mode b stk) hs hf hd).trans ht'

/-! ### The five instructions the mode matters to -/

/-- A shift whose flag differs between the bytes 0x81 and 0 depends on the mode: the flag is the operand's. -/
theorem modeMatters_of_shift {i : Instr} {x y : RegIdx} {result flag : Byte → Byte} (hxy : x ≠ y)
    (h : ∀ s : State, exec i s = .next (aluWrite x (result (s.shiftOperand x y)) (flag (s.shiftOperand x y)) s))
    (hflag : flag 0#8 ≠ flag 0x81#8) : modeMatters i := by
  refine ⟨State.reset.setV y 0x81#8, _, _, h _, h _, fun e => hflag ?_⟩
  have hx : (State.reset.setV y 0x81#8).getV x = 0#8 :=
    (State.getV_setV_other _ _ hxy).trans (Vector.getElem_replicate x.isLt)
  have hy : (State.reset.setV y 0x81#8).getV y = 0x81#8 := State.getV_setV_same _ _ _
  have hread := congrArg (fun s => s.getV Config.flagReg) e
  calc flag 0#8
    _ = flag ((State.reset.setV y 0x81#8).getV x) := by rw [hx]
    _ = flag ((State.reset.setV y 0x81#8).getV y) :=
      (aluWrite_getV _ _ _ _ _).symm.trans (hread.trans (aluWrite_getV _ _ _ _ _))
    _ = flag 0x81#8 := by rw [hy]

/-- With `v[0]` = 1 and every other register 0 the jump of `Bnnn` depends on the mode when it names another register. -/
theorem modeMatters_jpV0 {nnn : Imm12} (h : 0x100 ≤ nnn.toNat) : modeMatters (.jpV0 nnn) := by
  refine ⟨State.reset.setV 0#4 1#8, _, _, exec_jpV0 nnn _, exec_jpV0 nnn _, fun e => ?_⟩
  have hreg : BitVec.ofNat 4 (nnn.toNat / 256) ≠ 0#4 := by
    have := nnn.isLt
    intro hz
    have := congrArg BitVec.toNat hz
    simp only [BitVec.toNat_ofNat] at this
    omega
  have hother : (State.reset.setV 0#4 1#8).getV (BitVec.ofNat 4 (nnn.toNat / 256)) = 0#8 :=
    (State.getV_setV_other _ _ hreg).trans (Vector.getElem_replicate _)
  have hpc : nnn.setWidth 16 + ((State.reset.setV 0#4 1#8).getV (jumpOffsetReg .chip48 nnn)).setWidth 16 =
      nnn.setWidth 16 + 1#16 := congrArg State.pc e
  rw [jumpOffsetReg_chip48, hother] at hpc
  exact absurd (add_left_cancel hpc) (by decide)

/-- From `i` = 0 the two modes advance `i` to different values (R144, R145). -/
theorem nextIndex_reset_ne (x : RegIdx) :
    State.nextIndex { State.reset with mode := .chip48 } x ≠ State.nextIndex { State.reset with mode := .chip8 } x := by
  intro e
  have hx : 0 + x.toNat ≤ 4095 := by have := x.isLt; omega
  have h8 := (State.nextIndex_toNat (s := { State.reset with mode := .chip8 }) hx).1 rfl
  have h48 := (State.nextIndex_toNat (s := { State.reset with mode := .chip48 }) hx).2 rfl
  rw [e, h8] at h48
  exact absurd h48 (Nat.succ_ne_self _)

theorem withRange_reset (x : RegIdx) (m : Mode) (e : State) :
    withRange (x.toNat + 1) { State.reset with mode := m } e = .next e :=
  have hx : 0 + (x.toNat + 1) ≤ 4096 := by have := x.isLt; omega
  withRange_of_inRange (.inr hx) e

theorem modeMatters_ldMemVx (x : RegIdx) : modeMatters (.ldMemVx x) :=
  ⟨State.reset, _, _, (exec_ldMemVx x _).trans (withRange_reset x _ _), (exec_ldMemVx x _).trans (withRange_reset x _ _),
    fun e => nextIndex_reset_ne x (congrArg State.i e)⟩

theorem modeMatters_ldVxMem (x : RegIdx) : modeMatters (.ldVxMem x) :=
  ⟨State.reset, _, _, (exec_ldVxMem x _).trans (withRange_reset x _ _), (exec_ldVxMem x _).trans (withRange_reset x _ _),
    fun e => nextIndex_reset_ne x (congrArg State.i e)⟩

/-! ### The obligations -/

/-- Settles O25: with the mode alone laid over, every other instruction does the same; each of the five differs from a state
written out above. -/
theorem modeAffectsOnlyFive : Obligations.ModeAffectsOnlyFive := by
  refine ⟨fun i s m hi => ?_, fun x y hxy => ⟨?shr, ?shl⟩, fun _ => modeMatters_jpV0,
    fun x => ⟨modeMatters_ldMemVx x, modeMatters_ldVxMem x⟩⟩
  · obtain ⟨t, b', stk', ht, ht', hc⟩ := exec_carries (s := s) (m := m) (b := s.st) (.inl hi) fun _ _ => rfl
    obtain rfl := hc.st rfl
    obtain rfl := hc.stack rfl
    exact ⟨t, ht, ht'⟩
  case shr =>
    exact modeMatters_of_shift (result := (· >>> 1)) (flag := (flagByte <| bitOutRight ·)) hxy (exec_shrVy x y) (by decide)
  case shl =>
    exact modeMatters_of_shift (result := (· <<< 1)) (flag := (flagByte <| bitOutLeft ·)) hxy (exec_shlVy x y) (by decide)

/-- Settles O59: a step with the sound timer alone laid over. -/
theorem soundTimerIsUnobservable : Obligations.SoundTimerIsUnobservable := by
  intro s s' h
  obtain ⟨t, b', stk', ht, ht', hc⟩ := step_carries (s := s) s'.st (stk := s.stack) fun _ _ => rfl
  obtain rfl := hc.stack rfl
  exact ⟨t, _, ht, (congrArg step h).trans ht', rfl⟩

/-- Settles O60: a step with other entries not in use laid over. -/
theorem deadStackIsUnobservable : Obligations.DeadStackIsUnobservable := by
  intro s s' ⟨h, hl⟩
  obtain ⟨t, b', stk', ht, ht', hc⟩ := step_carries (s := s) s.st hl
  obtain rfl := hc.st rfl
  exact ⟨t, _, ht, (congrArg step h).trans ht', rfl, hc.live⟩

end Machine

end Sys2Proof
end

section
/-! PROOFS. Sound states (spec/10_state.md R16, R19, spec/60_exceptions.md R201): every step answers a next state and keeps
the invariant, every `Reset` establishes it, and so does every order of host operations (spec/20_memory.md R52). -/

namespace Sys2Proof

namespace Machine

/-! ### The fault registers -/

/-- While RUNNING the fault registers are 0 (R26). -/
theorem State.faultCoherent_of_running {s : State} (h : s.status = .running) :
    s.faultCoherent = true ↔ s.faultCause = .none ∧ s.faultPc = 0#16 ∧ s.faultInfo = 0#16 := by
  simp only [State.faultCoherent, h, Bool.and_eq_true, decide_eq_true_eq, and_assoc]

/-- A fault whose detail is the one of R201 keeps a state sound (R209). -/
theorem State.Inv.raise {c : FaultCause} {info : Word} {s : State} (h : s.Inv)
    (hrec : (Machine.raise c info s).faultRecorded = true) : (Machine.raise c info s).Inv := by
  obtain ⟨hm, hpc, hst, -⟩ := h
  refine ⟨hm, hpc, hst, ?_⟩
  simp only [State.faultCoherent, raise_status, hrec, raise_faultPc, raise_pc, decide_true, Bool.and_true]

/-- A state that keeps the status and the fault registers of a RUNNING one stays coherent. -/
theorem NoFault.faultCoherent {s t : State} (hn : NoFault s t) (hs : s.status = .running)
    (h : s.faultCoherent = true) : t.faultCoherent = true := by
  rw [State.faultCoherent_of_running hs] at h
  rw [State.faultCoherent_of_running (hn.status.trans hs), hn.faultCause, hn.faultPc, hn.faultInfo]
  exact h

/-! ### One step -/

/-- An instruction of a RUNNING core keeps a state sound; `pc` is where the word was fetched. -/
theorem exec_inv {i : Instr} {s t : State} (hs : s.status = .running) (hpc : s.pc.toNat ≤ 4094) (h : s.Inv)
    (ht : exec i s = .next t) : t.Inv := by
  obtain ⟨u, hu, hf, hn, hrule⟩ | ⟨info, hu, -, hrec⟩ := exec_answers i s
  · obtain rfl := Host.Outcome.next.inj (hu.symm.trans ht)
    obtain ⟨hm, -, hst, hco⟩ := h
    exact ⟨hf.memWf hm, hrule.bound hpc hst, hf.stackBounded hpc hst, hn.faultCoherent hs hco⟩
  · obtain rfl := Host.Outcome.next.inj (hu.symm.trans ht)
    exact h.raise hrec

/-- An undefined word keeps a state sound, whether it is a no-op or a fault (R67, R68). -/
theorem undefinedWord_inv {op : Word} {s : State} (hs : s.status = .running) (hpc : s.pc.toNat ≤ 4094)
    (hw : wordDefined op = false) (h : s.Inv) : (undefinedWord op s).Inv := by
  obtain ⟨-, e⟩ | ⟨hstrict, e⟩ := undefinedWord_cases op s
  · obtain ⟨hm, -, hst, hco⟩ := h
    rw [e]
    exact ⟨hm, toNat_add_le hpc 2 (by decide), hst, NoFault.faultCoherent {} hs hco⟩
  · rw [e]
    refine h.raise ?_
    simp only [State.faultRecorded, raise_faultCause, raise_strictDecode, raise_faultInfo, hstrict, hw, Bool.not_false,
      Bool.and_true]

/-- Every step answers a next state. -/
theorem step_answers (s : State) : ∃ t, step s = .next t := by
  obtain ⟨-, e⟩ | ⟨-, -, e⟩ | ⟨op, r, -, -, -, e⟩ | ⟨op, i, -, -, -, e⟩ := stepWith_cases exec s
  · exact ⟨_, e⟩
  · exact ⟨_, e⟩
  · exact ⟨_, e⟩
  · obtain ⟨t, ht, -⟩ | ⟨info, ht, -⟩ := exec_answers i s
    · exact ⟨_, e.trans ht⟩
    · exact ⟨_, e.trans ht⟩

/-- Every step keeps a state sound. -/
theorem step_inv {s t : State} (h : s.Inv) (ht : step s = .next t) : t.Inv := by
  obtain ⟨-, e⟩ | ⟨-, hf, e⟩ | ⟨op, r, hs, hf, hd, e⟩ | ⟨op, i, hs, hf, -, e⟩ := stepWith_cases exec s
  · exact Host.Outcome.next.inj (e.symm.trans ht) ▸ h
  · obtain rfl := Host.Outcome.next.inj (e.symm.trans ht)
    have hpc : 4095 ≤ s.pc.toNat := by
      by_contra hlt
      rw [fetchWord_of_le (by omega)] at hf
      cases hf
    refine h.raise ?_
    simp only [State.faultRecorded, raise_faultCause, raise_pc, raise_faultInfo, hpc, decide_true, Bool.and_true]
  · obtain rfl := Host.Outcome.next.inj (e.symm.trans ht)
    exact undefinedWord_inv hs (fetchWord_eq_some_le hf) (wordDefined_eq_false_iff.mpr ⟨r, hd⟩) h
  · exact exec_inv hs (fetchWord_eq_some_le hf) h (e.symm.trans ht)

/-- Settles O56: the four cases of a step. -/
theorem stepKeepsSoundState : Obligations.StepKeepsSoundState :=
  fun s => ⟨step_answers s, fun h _ => step_inv h⟩

/-! ### Host operations -/

theorem doReset_inv (s : State) (mode : Mode) (rom : List Byte) (font : Config.Font) (strict : Bool) :
    (s.doReset mode rom font strict).Inv :=
  ⟨State.resetWith_mem_wf mode rom font strict, show (0x200#16).toNat ≤ 0x10FE by decide,
    fun k hk => absurd hk (Nat.not_lt_zero k.val), rfl⟩

/-- Settles O57: a reset core has written memory canonically, `pc` is 0x200, the stack is empty, the fault registers are 0. -/
theorem resetIsSound : Obligations.ResetIsSound :=
  ⟨⟨State.reset_mem_wf, by decide, fun k hk => absurd hk (Nat.not_lt_zero k.val), rfl⟩, doReset_inv⟩

/-- Every operation answers a next state, and a sound one from a sound state. -/
theorem Operation.apply_inv (op : Operation) {s : State} (h : s.Inv) : ∃ t, op.apply s = .next t ∧ t.Inv := by
  cases op with
  | reset mode rom font strict => exact ⟨_, rfl, doReset_inv s mode rom font strict⟩
  | step =>
    obtain ⟨t, ht⟩ := step_answers s
    exact ⟨t, ht, step_inv h ht⟩
  | timerTick =>
    refine ⟨_, rfl, ?_⟩
    rw [s.timerTick_frame]
    exact h
  | setKeys k =>
    refine ⟨_, rfl, ?_⟩
    rw [s.setKeys_frame k]
    exact h
  | readFramebuffer => exact ⟨_, rfl, h⟩
  | consumeDrawPending => exact ⟨_, rfl, h⟩
  | readStatus => exact ⟨_, rfl, h⟩

/-- Settles O58: the invariant along the list of operations. -/
theorem operationsKeepSoundState : Obligations.OperationsKeepSoundState := by
  intro ops
  induction ops with
  | nil => exact fun s h => ⟨s, rfl, h⟩
  | cons op ops ih =>
    intro s h
    obtain ⟨t, ht, hinv⟩ := op.apply_inv h
    rw [runOperations_cons ht]
    exact ih t hinv

end Machine

end Sys2Proof
end

section
/-! PROOFS. The host's side (spec/60_exceptions.md R211 to R218, spec/70_reset_and_hazards.md R240, R248): timers, keys and
the framebuffer port, the values after `Reset`, the FAULTED core, the tick loop. -/

namespace Sys2Proof

namespace Machine

/-! ### Timers, keys, framebuffer -/

theorem State.ifRunning_of_faulted {s : State} (h : s.status = .faulted) (e : State) : s.ifRunning e = s := by
  simp only [State.ifRunning, h]

theorem State.ifRunning_of_running {s : State} (h : s.status = .running) (e : State) : s.ifRunning e = e := by
  simp only [State.ifRunning, h]

/-- Settles O44: on a RUNNING core each timer is counted down, stopping at 0. -/
theorem timerTickCountsDown : Obligations.TimerTickCountsDown := by
  refine fun s => ⟨fun h => s.ifRunning_of_faulted h _, fun h => ⟨s.timerTick_frame, ?dt, ?st⟩⟩
  case dt =>
    rw [State.timerTick, State.ifRunning_of_running h]
    exact countDown_toNat s.dt
  case st =>
    rw [State.timerTick, State.ifRunning_of_running h]
    exact countDown_toNat s.st

/-- Settles O45: on a RUNNING core the key array is the argument. -/
theorem setKeysReplacesAllKeys : Obligations.SetKeysReplacesAllKeys := by
  refine fun k s => ⟨fun h => s.ifRunning_of_faulted h _, fun h => ⟨s.setKeys_frame k, fun j _ => ?_⟩⟩
  rw [State.setKeys, State.ifRunning_of_running h]
  rfl

theorem State.length_readFramebuffer (s : State) : s.readFramebuffer.length = 2048 := by
  rw [State.readFramebuffer, List.length_map, List.length_range]
  rfl

/-- The picture in the order of R23. -/
theorem State.readFramebuffer_getElem? (s : State) {r c : Nat} (hr : r < 32) (hc : c < 64) :
    s.readFramebuffer[r * 64 + c]? = some (s.fb.pixel r c) := by
  have hlt : r * 64 + c < Config.fbHeight * Config.fbWidth := by
    show r * 64 + c < 2048
    omega
  have hrow : (r * 64 + c) / Config.fbWidth = r := by
    show (r * 64 + c) / 64 = r
    omega
  have hcol : (r * 64 + c) % Config.fbWidth = c := by
    show (r * 64 + c) % 64 = c
    omega
  rw [State.readFramebuffer, List.getElem?_map, List.getElem?_range hlt, Option.map_some, hrow, hcol]

/-- Settles O46: the picture pixel by pixel, and the flag cleared alone. -/
theorem framebufferPort : Obligations.FramebufferPort :=
  fun s => ⟨rfl, s.length_readFramebuffer, fun _ hr _ hc => s.readFramebuffer_getElem? hr hc, rfl, rfl⟩

/-! ### Reset -/

/-- Settles O48: the state after `Reset` is written out in `State.resetWith`. -/
theorem resetValues : Obligations.ResetValues := by
  refine ⟨by decide, fun s mode rom font strict => ?_⟩
  refine ⟨_, rfl, rfl, rfl, rfl, rfl, ?regs, rfl, rfl, rfl, rfl, rfl, ?fb, rfl, rfl⟩
  case regs => exact fun k => Vector.getElem_replicate k.isLt
  case fb => exact Framebuffer.pixel_clear

/-! ### The FAULTED core -/

/-- An operation other than `Reset` changes at most `draw_pending` of a FAULTED core (R212). -/
theorem Operation.apply_faulted {op : Operation} {s : State} (hop : op.isReset = false) (hs : s.status = .faulted) :
    ∃ t, op.apply s = .next t ∧ t = { s with drawPending := t.drawPending } := by
  cases op with
  | reset => cases hop
  | step => exact ⟨s, stepWith_faulted exec hs, rfl⟩
  | timerTick => exact ⟨s, congrArg _ (s.ifRunning_of_faulted hs _), rfl⟩
  | setKeys k => exact ⟨s, congrArg _ (s.ifRunning_of_faulted hs _), rfl⟩
  | readFramebuffer => exact ⟨s, rfl, rfl⟩
  | consumeDrawPending => exact ⟨_, rfl, rfl⟩
  | readStatus => exact ⟨s, rfl, rfl⟩

/-- No schedule without a `Reset` changes more than `draw_pending` of a FAULTED core (R211, R212). -/
theorem runOperations_faulted (ops : List Operation) (hops : ∀ op ∈ ops, op.isReset = false) {s : State}
    (hs : s.status = .faulted) : ∃ t, runOperations ops s = .next t ∧ t = { s with drawPending := t.drawPending } := by
  induction ops generalizing s with
  | nil => exact ⟨s, rfl, rfl⟩
  | cons op ops ih =>
    obtain ⟨hop, hops⟩ := List.forall_mem_cons.mp hops
    obtain ⟨u, hu, hfu⟩ := op.apply_faulted hop hs
    obtain ⟨t, ht, hft⟩ := ih hops (s := u) (hfu ▸ hs)
    refine ⟨t, (runOperations_cons hu).trans ht, hft.trans ?_⟩
    rw [hfu]

/-- Settles O9: each operation by itself, and every schedule without a `Reset`. -/
theorem faultedCoreIsFrozen : Obligations.FaultedCoreIsFrozen := by
  refine fun s hs => ⟨stepWith_faulted exec hs, s.ifRunning_of_faulted hs _, fun k => s.ifRunning_of_faulted hs _, rfl, ?_,
    fun ops hops => runOperations_faulted ops hops hs⟩
  rw [State.readStatus, hs]

/-! ### The tick loop -/

/-- The test after a `Step` that ends a burst (R248). -/
def State.endsBurst (s : State) : Bool := s.drawPending || decide (s.status = .faulted)

theorem State.endsBurst_eq_true {s : State} : s.endsBurst = true ↔ s.drawPending = true ∨ s.status = .faulted := by
  simp only [State.endsBurst, Bool.or_eq_true, decide_eq_true_eq]

theorem State.endsBurst_eq_false {s : State} :
    s.endsBurst = false ↔ s.drawPending = false ∧ s.status = .running := by
  simp only [State.endsBurst, Bool.or_eq_false_iff, decide_eq_false_iff_not]
  cases s.status <;> simp

/-- One turn of the burst (R248). -/
theorem burst_succ {left : Nat} {s u : State} (h : step s = .next u) :
    burst (left + 1) s = if u.endsBurst then .next u else burst left u := by
  simp only [burst, h]
  rfl

theorem burst_answers (left : Nat) (s : State) : ∃ t, burst left s = .next t := by
  induction left generalizing s with
  | zero => exact step_answers s
  | succ left ih =>
    obtain ⟨u, hu⟩ := step_answers s
    rw [burst_succ hu]
    split
    · exact ⟨u, rfl⟩
    · exact ih u

theorem runOperations_step_cons {s u : State} (h : step s = .next u) (k : Nat) :
    runOperations (List.replicate (k + 1) .step) s = runOperations (List.replicate k .step) u :=
  runOperations_cons h

/-- A burst from `s` that ends in `t` is `k` steps, none of which before the last ends it (R248, R249). -/
def IsBurst (left k : Nat) (s t : State) : Prop :=
  1 ≤ k ∧ k ≤ left + 1 ∧ runOperations (List.replicate k .step) s = .next t ∧
    (∀ j u, 1 ≤ j → j < k → runOperations (List.replicate j .step) s = .next u →
      u.drawPending = false ∧ u.status = .running) ∧
    (k < left + 1 → t.drawPending = true ∨ t.status = .faulted)

/-- A burst of one step: the cap is 1, or the step ends it. -/
theorem isBurst_one {left : Nat} {s t : State} (h : step s = .next t) (hend : left = 0 ∨ t.endsBurst = true) :
    IsBurst left 1 s t := by
  refine ⟨Nat.le_refl 1, Nat.le_add_left 1 left, runOperations_step_cons h 0, fun j u h1 h2 => by omega, fun hlt => ?_⟩
  exact State.endsBurst_eq_true.mp (hend.resolve_left (by omega))

/-- A burst goes on after a step that does not end it. -/
theorem isBurst_succ {left k : Nat} {s u t : State} (h : step s = .next u) (hgo : u.endsBurst = false)
    (hb : IsBurst left k u t) : IsBurst (left + 1) (k + 1) s t := by
  obtain ⟨-, hle, hrun, hbefore, hend⟩ := hb
  refine ⟨Nat.le_add_left 1 k, Nat.succ_le_succ hle, (runOperations_step_cons h k).trans hrun, ?before,
    fun hlt => hend (Nat.lt_of_succ_lt_succ hlt)⟩
  case before =>
    intro j w h1 h2 hw
    obtain ⟨j, rfl⟩ := Nat.exists_eq_add_of_le' h1
    rw [runOperations_step_cons h] at hw
    cases j with
    | zero => exact Host.Outcome.next.inj hw ▸ State.endsBurst_eq_false.mp hgo
    | succ j => exact hbefore (j + 1) w (Nat.le_add_left 1 j) (Nat.lt_of_succ_lt_succ h2) hw

theorem exists_isBurst {left : Nat} {s t : State} (h : burst left s = .next t) : ∃ k, IsBurst left k s t := by
  induction left generalizing s with
  | zero => exact ⟨1, isBurst_one h (.inl rfl)⟩
  | succ left ih =>
    obtain ⟨u, hu⟩ := step_answers s
    rw [burst_succ hu] at h
    split at h
    case isTrue hend =>
      obtain rfl := Host.Outcome.next.inj h
      exact ⟨1, isBurst_one hu (.inr hend)⟩
    case isFalse hgo =>
      obtain ⟨k, hk⟩ := ih h
      exact ⟨k + 1, isBurst_succ hu (Bool.eq_false_iff.mpr hgo) hk⟩

/-- Settles O49: the burst by induction on the steps left, and the tick as the burst between `SetKeys` and its end. -/
theorem burstIsBoundedRun : Obligations.BurstIsBoundedRun := by
  refine ⟨fun left s t => exists_isBurst, fun left keys s => ?_⟩
  obtain ⟨t, ht⟩ := burst_answers left (s.setKeys keys)
  refine ⟨t, ht, ?_⟩
  rw [tick, ht, ← endTick_eq]

end Machine

end Sys2Proof
end
